-- ==== Sys2Proof/Word.lean ====
section
/-! DEFINITION. The word types of GCDEC: a byte, and the line level and bit value as `Bool`.

A byte is 8 bits, bit 0 the least significant (rule R7). Sample indices are unbounded natural
numbers (rules R6, R21; log entry 8) and are written `Nat`. A line level is a `Bool`, `true` for
high (1); a classified bit is a `Bool`, `true` for 1. -/

namespace Sys2Proof

/-- A byte value 0 to 255, bit 7 the most significant (rule R7). -/
abbrev Byte := BitVec 8

end Sys2Proof
end

