-- ==== Sys2Proof/Syntax.lean ====
section
/-! DEFINITION. The syntax of what GCDEC decodes: the seven commands (the rows of the opcode table,
rule R100), a whole frame (rule R110) and a bit cell on the wire (rules R90, R111). -/

namespace Sys2Proof

/-- A recognised command with its parameter bytes: one constructor per row of the opcode table
(rule R100), in the table's order. Only the CMD3 commands have parameter bytes (rule R93). -/
inductive Instr where
  /-- 0x00 "Probe/Identify" (rule R175). -/
  | probe
  /-- 0xFF "Reset" (rule R176): what it asks of the controller, not of GCDEC. -/
  | reset
  /-- 0x41 "Read Origin" (rule R177). -/
  | origin
  /-- 0x42 "Calibrate" (rule R178). -/
  | calib
  /-- 0x43 "Status Long (variant)" (rule R179). -/
  | statusl
  /-- 0x40 "Read Input / Status" with its mode and rumble bytes, whole and raw (rules R96, R180). -/
  | status (mode rumble : Byte)
  /-- 0x54 "Keyboard Read" with two parameter bytes that are counted only (rules R96, R181). -/
  | kbd (param1 param2 : Byte)
deriving DecidableEq, Repr

/-- A frame as rule R110 writes it: a command, then the response bytes actually sent. -/
structure Frame where
  command  : Instr
  response : List Byte
deriving DecidableEq, Repr

/-- A bit cell `(l, h)` of rule R111: `low` samples low, then `high` samples high. -/
structure Cell where
  low  : Nat
  high : Nat
deriving DecidableEq, Repr

end Sys2Proof
end

