-- ==== Sys2Proof/Decode.lean ====
section
/-! DEFINITION. The opcode table (rule R100), the decoder from the bytes at the head of `BYTEQ` to a
command, and the encoder from a command to its bytes and wire bits. -/

namespace Sys2Proof

/-- The seven recognised opcodes by name (rules R100, R110), in the table's order. -/
inductive Opcode where
  | probe | reset | origin | calib | statusl | status | kbd
deriving DecidableEq, Repr

/-- One row of the opcode table (rule R100): an exact match on the whole first byte, the command
length including the opcode (rules R93, R95; conflict C1) and the response length (rule R94). -/
structure OpcodeRow where
  op      : Opcode
  pattern : Byte
  mask    : Byte
  cmdLen  : Nat
  respLen : Nat
deriving DecidableEq, Repr

/-- The row of an opcode, as rule R100 lists it. -/
def Opcode.row : Opcode → OpcodeRow
  | .probe   => ⟨.probe,   0x00#8, 0xFF#8, 1, 3⟩
  | .reset   => ⟨.reset,   0xFF#8, 0xFF#8, 1, 3⟩
  | .origin  => ⟨.origin,  0x41#8, 0xFF#8, 1, 10⟩
  | .calib   => ⟨.calib,   0x42#8, 0xFF#8, 1, 10⟩
  | .statusl => ⟨.statusl, 0x43#8, 0xFF#8, 1, 10⟩
  | .status  => ⟨.status,  0x40#8, 0xFF#8, 3, 8⟩
  | .kbd     => ⟨.kbd,     0x54#8, 0xFF#8, 3, 8⟩

/-- The opcodes in the table's order. -/
def Opcode.all : List Opcode :=
  [.probe, .reset, .origin, .calib, .statusl, .status, .kbd]

/-- The opcode's byte on the wire. -/
def Opcode.byte (o : Opcode) : Byte := o.row.pattern

/-- Bytes of the command part, opcode included (rules R93, R95). -/
def Opcode.cmdLen (o : Opcode) : Nat := o.row.cmdLen

/-- Bytes of the response part (rules R94, R95). -/
def Opcode.respLen (o : Opcode) : Nat := o.row.respLen

/-- Whether a byte is this row's opcode. -/
def OpcodeRow.matches (r : OpcodeRow) (b : Byte) : Bool := b &&& r.mask == r.pattern

/-- The opcode a byte stands for; `none` for the 249 unrecognised values (rules R100, R101). -/
def Opcode.ofByte (b : Byte) : Option Opcode :=
  Opcode.all.find? fun o => o.row.matches b

/-- What the bytes queued in INITIAL stand for (rules R171 to R173). -/
inductive Decoded where
  /-- A complete command. -/
  | command (i : Instr)
  /-- A recognised three-byte opcode whose parameter bytes have not all arrived (rule R173). -/
  | awaiting (o : Opcode)
  /-- The head byte is not one of the seven opcodes (rules R101, R172). -/
  | unknownOpcode (b : Byte)
  /-- No byte is queued. -/
  | empty
deriving DecidableEq, Repr

/-- The decoder: it reads the head of the queue, "whatever the number of bytes queued behind it"
(rule R171), and takes parameter bytes with any value (rules R101, R173). Total on any bytes. -/
def decode : List Byte → Decoded
  | [] => .empty
  | b :: ps =>
    match Opcode.ofByte b with
    | none => .unknownOpcode b
    | some .probe => .command .probe
    | some .reset => .command .reset
    | some .origin => .command .origin
    | some .calib => .command .calib
    | some .statusl => .command .statusl
    | some .status =>
      match ps with
      | p1 :: p2 :: _ => .command (.status p1 p2)
      | _ => .awaiting .status
    | some .kbd =>
      match ps with
      | p1 :: p2 :: _ => .command (.kbd p1 p2)
      | _ => .awaiting .kbd

/-- The opcode of a command. -/
def Instr.opcode : Instr → Opcode
  | .probe => .probe
  | .reset => .reset
  | .origin => .origin
  | .calib => .calib
  | .statusl => .statusl
  | .status _ _ => .status
  | .kbd _ _ => .kbd

/-- The parameter bytes of a command, in the order they arrive (rule R63). -/
def Instr.params : Instr → List Byte
  | .status mode rumble => [mode, rumble]
  | .kbd param1 param2 => [param1, param2]
  | .probe | .reset | .origin | .calib | .statusl => []

/-- The encoder: opcode byte, then parameter bytes (rules R92, R93). -/
def encode (i : Instr) : List Byte := i.opcode.byte :: i.params

/-- The eight bits of a byte in wire order, most significant first (rule R62). -/
def byteBits (v : Byte) : List Bool :=
  [v.getLsbD 7, v.getLsbD 6, v.getLsbD 5, v.getLsbD 4,
   v.getLsbD 3, v.getLsbD 2, v.getLsbD 1, v.getLsbD 0]

/-- The bits of a command in wire order, without the stop bit (rules R62, R92). -/
def encodeBits (i : Instr) : List Bool := (encode i).flatMap byteBits

/-- The three bytes of a table word numbered as `opcode_table.json` numbers it: bits 7 to 0 the
first byte on the wire, later bytes counting on; every bit at or above `nbits` is 0. -/
def tableBytes (nbits w : Nat) : List Byte :=
  let v := w % 2 ^ nbits
  [BitVec.ofNat 8 v, BitVec.ofNat 8 (v / 2 ^ 8), BitVec.ofNat 8 (v / 2 ^ 16)]

/-- The command the decoder reads from a table word. -/
def decodeTableWord (nbits w : Nat) : Option Instr :=
  match decode (tableBytes nbits w) with
  | .command i => some i
  | .awaiting _ | .unknownOpcode _ | .empty => none

end Sys2Proof
end

