-- ==== Sys2Proof/Config.lean ====
section
/-! DEFINITION. The parameters of GCDEC that its specification fixes (rule R6), and the two session
arguments that `State.reset` uses. No value here is free: `R` and `DESYNC_GAP`, which the
specification leaves OPEN (decision D6, `93_implementation_defined.md` U9 and U10), are arguments of
`SessionStart` and registers of the state, so every statement covers every value of them. -/

namespace Sys2Proof.Config

/-- `R_MIN`: the lowest sample rate at which decoding starts (rules R6, R242). -/
abbrev rMin : Nat := 2000000

/-- `R_WARN`: the rate below which the borderline warning is emitted (rules R6, R244). -/
abbrev rWarn : Nat := 5000000

/-- `IDLE_MULT`: the idle threshold as a multiple of the low duration (rules R6, R134). -/
abbrev idleMult : Nat := 4

/-- `TIMEOUT` is 1/1000 s, compared as `1000 * (t - TREF) >= RATE` (rules R6, R192, R193). -/
abbrev timeoutScale : Nat := 1000

/-- `BITQ_DEPTH`: the bit queue's capacity during a tick (rules R6, R30, R67). -/
abbrev bitqDepth : Nat := 8

/-- `BYTEQ_DEPTH`: the byte queue's capacity (rules R6, R33, R66; decision D12). -/
abbrev byteqDepth : Nat := 10

/-- The `R` of the session that `State.reset` has just started. DESIGN CHOICE, unsafe, log entry 3:
the specification leaves `R` to the host; this is the rate its own test vectors use
(`95_test_vectors.md` section 1). -/
abbrev resetRate : Nat := 5000000

/-- The `DESYNC_GAP` of the session that `State.reset` has just started. DESIGN CHOICE, unsafe, log
entry 3: the specification gives no number (decision D6); this is the one its test vectors use. -/
abbrev resetGap : Nat := 100

end Sys2Proof.Config
end

