-- ==== Sys2Proof/Machine/State.lean ====
section
/-! DEFINITION. The state of GCDEC: every register of rule R20, the host's side of the interface
(rule R13) as a list of pending acts, the session's output record stream (rule R10), and the state
after reset. Plain data throughout. GCDEC has no addressable memory (rule R60). -/

namespace Sys2Proof.Machine

/-- `CPH`, the classifier phase (rule R22). -/
inductive ClassifierPhase where
  | seekFall | seekRise | seekEvent
deriving DecidableEq, Repr

/-- `PH`, the protocol phase (rule R27). -/
inductive ProtocolPhase where
  | initial | awaitCommandStop | awaitResponseBytes | awaitResponseStop
deriving DecidableEq, Repr

/-- What rule R130 finds at a sample. -/
inductive Edge where
  | none | falling | rising
deriving DecidableEq, Repr

/-- A bit entry of `BITQ` (rule R30). The span is `(start, finish)`; the specification calls the
second part `end`, which is a word of Lean's. -/
structure BitEntry where
  val    : Bool
  start  : Nat
  finish : Nat
deriving DecidableEq, Repr

/-- A byte entry of `BYTEQ` (rule R33). -/
structure ByteEntry where
  val    : Byte
  start  : Nat
  finish : Nat
deriving DecidableEq, Repr

/-- `CMD`, the current command record (rule R36). -/
structure Command where
  op    : Byte
  first : Nat
deriving DecidableEq, Repr

/-- The fields of an ID0 record (rules R103, R219). -/
structure Id0 where
  wireless      : Bool
  bidir         : Bool
  rumbleCapable : Bool
  ctype         : BitVec 2
  standard      : Bool
deriving DecidableEq, Repr

/-- The fields of an ID2 record (rules R103, R220). -/
structure Id2 where
  hadError      : Bool
  errorLatched  : Bool
  originNotSent : Bool
  rumbleMode    : BitVec 2
  pollMode      : BitVec 3
deriving DecidableEq, Repr

/-- The buttons of a BTN0 record (rules R104, R221); `true` is pressed. -/
structure Btn0 where
  a     : Bool
  b     : Bool
  x     : Bool
  y     : Bool
  start : Bool
deriving DecidableEq, Repr

/-- The buttons of a BTN1 record (rules R104, R222); `true` is pressed. -/
structure Btn1 where
  dl : Bool
  dr : Bool
  dd : Bool
  du : Bool
  z  : Bool
  r  : Bool
  l  : Bool
deriving DecidableEq, Repr

/-- The kind of an annotation record with the fields rule R121 and rule R122 give it. -/
inductive Payload where
  | bit (val : Bool)
  | byte (val : Byte)
  | stop
  | cmd (op : Byte)
  | cmdParam (mode rumble : Byte)
  | id0 (fields : Id0)
  | id2 (fields : Id2)
  | btn0 (fields : Btn0)
  | btn1 (fields : Btn1)
  | stick (x y : Int)
  | cstick (x y : Int)
  | trig (left right : Byte)
  | origin (x y : Byte)
  | rateFatal
  | rateLow
deriving DecidableEq, Repr

/-- The six categories of rule R120. -/
inductive Category where
  | bit | byte | stopBit | command | responseField | warning
deriving DecidableEq, Repr

/-- An annotation record (rule R10): its span, and the kind with its payload. -/
structure Record where
  start   : Nat
  finish  : Nat
  payload : Payload
deriving DecidableEq, Repr

/-- The six exceptional events of rule R240. -/
inductive Event where
  | configError | rateLow | unknownOpcode | responseTimeout | desyncDiscard | stopSlotZero
deriving DecidableEq, Repr

/-- What the host can do to GCDEC (rules R13, R265): start a session with `(R, DESYNC_GAP)`, or
supply one sample of the data line. The third thing it can do, to stop, is an empty list of acts. -/
inductive HostAct where
  | sessionStart (rate gap : Nat)
  | sample (din : Bool)
deriving DecidableEq, Repr

/-- Why a step can stop with a fault: never. The only thing rule R9 says can be raised is
ConfigError, and its whole effect is a state (`FATAL = 1`, rules R242 and R243), so it is a next
state here; "Nothing else raises" (rule R249). The type is closed and has no constructor. -/
inductive Fault where
deriving DecidableEq, Repr

/-- Why a step can be refused. -/
inductive Refusal where
  /-- Raised by an arm of `exec` whose instruction has no meaning yet. No arm of this model raises
  it. Safe: nothing is claimed of such an instruction. -/
  | notModelled (mnemonic : String)
  /-- Raised by `step` on a sample that comes before the first `SessionStart` after power-up: "every
  register is unspecified and `Tick` has no defined result" (rule R280; U6 says `refuse`). Safe:
  nothing is claimed of such a tick. -/
  | tickBeforeSessionStart
deriving DecidableEq, Repr

/-- The complete state of GCDEC (rule R20) and, after it, the three fields of the model's own. -/
structure State where
  /-- `SIDX`, the sample index (rule R21). -/
  sidx          : Nat
  /-- `CPH` (rule R22). -/
  cph           : ClassifierPhase
  /-- `PREV`, the level of the previous sample (rule R23). -/
  prev          : Bool
  /-- `PREV_VALID` (rule R23). -/
  prevValid     : Bool
  /-- `FALL`, the falling edge that opened the cell in progress (rule R24). -/
  fall          : Nat
  /-- `RISE`, the most recent rising edge recorded (rule R25). -/
  rise          : Nat
  /-- `RISE_VALID` (rule R25). -/
  riseValid     : Bool
  /-- `LOW`, the low duration of the cell in progress (rule R26). -/
  low           : Nat
  /-- `PH` (rule R27). -/
  ph            : ProtocolPhase
  /-- `BITQ`, oldest first (rule R30). -/
  bitq          : List BitEntry
  /-- `BYTEQ`, oldest first (rule R33). -/
  byteq         : List ByteEntry
  /-- `CMD` (rule R36). -/
  cmd           : Command
  /-- `EXPLEN`, the expected response length (rule R37). -/
  expLen        : Nat
  /-- `TREF`, the response-wait start-time reference (rule R38). -/
  tref          : Nat
  /-- `POLLMODE` (rule R39). -/
  pollMode      : BitVec 3
  /-- `POLLMODE_VALID` (rule R39). -/
  pollModeValid : Bool
  /-- `FATAL` (rule R40). -/
  fatal         : Bool
  /-- `RATE`, the session's sample rate in Hz, 0 for missing (rule R41). -/
  rate          : Nat
  /-- `GAP`, the session's `DESYNC_GAP` in samples (rule R42). -/
  gap           : Nat
  /-- Whether a `SessionStart` has run since power-up (rule R280; log entry 2). -/
  started       : Bool
  /-- What the host will do, next act first (rule R13; log entry 1). -/
  host          : List HostAct
  /-- The session's output record stream so far, oldest first (rules R10, R14, R281; log entry 4). -/
  out           : List Record
deriving DecidableEq, Repr

/-- What an instruction, a rule or a step answers. -/
abbrev Result := Host.Outcome State Fault Refusal

/-- The state right after reset. GCDEC's one reset is `SessionStart(R, DESYNC_GAP)` (rule R280), and
this is rule R50's table for the session that log entry 3 names: `R` = 5,000,000 (so `FATAL` is 0
and no warning record is emitted) and `DESYNC_GAP` = 100, with nothing yet supplied by the host. The
zero values of `PREV`, `FALL`, `RISE`, `LOW`, `CMD`, `EXPLEN`, `TREF` and `POLLMODE` are rule R50's,
by the specification's own decisions D2, D7, D18 and D26. -/
def State.reset : State where
  sidx          := 0
  cph           := .seekFall
  prev          := false
  prevValid     := false
  fall          := 0
  rise          := 0
  riseValid     := false
  low           := 0
  ph            := .initial
  bitq          := []
  byteq         := []
  cmd           := { op := 0x00#8, first := 0 }
  expLen        := 0
  tref          := 0
  pollMode      := 0#3
  pollModeValid := false
  fatal         := false
  rate          := Config.resetRate
  gap           := Config.resetGap
  started       := true
  host          := []
  out           := []

end Sys2Proof.Machine
end

