-- ==== Sys2Proof/Machine/Flags.lean ====
section
/-! DEFINITION. The conditions GCDEC computes: the edge at a sample, the value of a bit, the idle,
desync and timeout tests, and the session-start rate checks. GCDEC has no condition codes (rule R45);
these comparisons are where its one-bit results come from. All are over natural numbers, exact and
without rounding (rules R138, R193). -/

namespace Sys2Proof.Machine

/-- `DetectEdge(din)` (rule R130): compare the sample with the previous one; the first sample of a
session is never an edge. -/
def detectEdge (prevValid prev din : Bool) : Edge :=
  if prevValid && prev && !din then .falling
  else if prevValid && !prev && din then .rising
  else .none

/-- The value of a cell closed by a falling edge (rule R133): 0 exactly when `high < low`. -/
def bitValue (high low : Nat) : Bool := decide (¬ high < low)

/-- The idle condition (rule R134): the high phase has reached four times the low phase. -/
def idleReached (high low : Nat) : Bool := decide (Config.idleMult * low ≤ high)

/-- The desync condition (rule R136): there has been a rising edge in this session and the gap since
it strictly exceeds `DESYNC_GAP`. -/
def gapExceeded (riseValid : Bool) (rise gap t : Nat) : Bool :=
  riseValid && decide (gap < t - rise)

/-- The time part of the timeout condition (rules R192, R193). -/
def timeoutReached (rate tref t : Nat) : Bool :=
  decide (rate ≤ Config.timeoutScale * (t - tref))

/-- The fatal rate condition, a missing rate (`R = 0`) included (rule R242). -/
def rateTooLow (rate : Nat) : Bool := decide (rate < Config.rMin)

/-- The borderline rate condition, tested where the fatal one does not hold (rule R244). -/
def rateBorderline (rate : Nat) : Bool := decide (rate < Config.rWarn)

end Sys2Proof.Machine
end

