-- ==== Sys2Proof/WellFormed.lean ====
section
/-! DEFINITION. Well-formedness of the syntax. Every parameter of an `Instr` is a `Byte`, so every
term of `Instr` is a command the wire can carry and needs no check of its own. A frame and a cell are
plain data and have one check for each condition. -/

namespace Sys2Proof

/-- A frame that is not "(truncated)" carries exactly its opcode's response bytes (rules R94, R110). -/
def Frame.wf (f : Frame) : Bool := f.response.length == f.command.opcode.respLen

/-- A cell has a low phase of at least one sample (rule R90). -/
def Cell.hasLow (c : Cell) : Bool := decide (1 ≤ c.low)

/-- A cell has a high phase of at least one sample: the line rises before the next event
(rules R90, R111). -/
def Cell.hasHigh (c : Cell) : Bool := decide (1 ≤ c.high)

/-- As far as the classifier is concerned a high phase is never longer than four times the low phase
(rule R91): beyond that the cell has been closed by idle. -/
def Cell.notIdle (c : Cell) : Bool := decide (c.high ≤ 4 * c.low)

/-- A cell that a falling edge closes (rows 1 and 2 of rule R91). -/
def Cell.wf (c : Cell) : Bool := c.hasLow && c.hasHigh && c.notIdle

end Sys2Proof
end

