-- ==== Sys2Proof/Machine/Wave.lean ====
section
/-! DEFINITION. Waveform notation (rule R111): the samples of a cell and of a list of cells, the bit a
cell stands for when a falling edge closes it (rule R91), and the timing set T20. -/

namespace Sys2Proof.Machine

/-- The samples of a cell: `L<l> H<h>` (rule R111). -/
def cellSamples (c : Cell) : List Bool := List.replicate c.low false ++ List.replicate c.high true

/-- The samples of a list of cells, in order. -/
def cellsSamples (cs : List Cell) : List Bool := cs.flatMap cellSamples

/-- The bit of a cell that a falling edge closes (rule R91, rows 1 and 2). -/
def cellBit (c : Cell) : Bool := bitValue c.high c.low

/-- The number of samples of a cell. -/
def cellLength (c : Cell) : Nat := c.low + c.high

/-- The number of samples of a list of cells. -/
def cellsLength : List Cell → Nat
  | [] => 0
  | c :: cs => cellLength c + cellsLength cs

/-- Timing T20 (rule R111): a 0 cell is `(15, 5)`, a 1 cell is `(5, 15)`. -/
def t20 (b : Bool) : Cell := if b then ⟨5, 15⟩ else ⟨15, 5⟩

end Sys2Proof.Machine
end

