-- ==== Sys2Proof/Machine/Fetch.lean ====
section
/-! DEFINITION. Placing a command so that the very next step runs it. GCDEC stores no program: the
"program" is the waveform on the input, consumed once (rule R60). A command runs in the tick that
closes the last cell of its last byte, so the state placed here is the one just before that tick: the
command's earlier bytes in `BYTEQ`, the first seven bits of the last byte in `BITQ`, the last cell in
progress, and the falling edge that closes it as the host's next sample (log entry 9). Times follow
timing T20 with the first cell falling ten samples from now, as in the specification's vectors. -/

namespace Sys2Proof.Machine

/-- The bytes of the command at the head of `bs`: all the decoder takes, or the one byte it inspects
where it recognises none. -/
def placedBytes (bs : List Byte) : List Byte :=
  match decode bs with
  | .command i => encode i
  | .awaiting _ | .unknownOpcode _ | .empty => bs.take 1

/-- Byte entries back to back from sample `t`, 160 samples each (timing T20). -/
def byteEntriesFrom (t : Nat) : List Byte → List ByteEntry
  | [] => []
  | v :: vs => ⟨v, t, t + 160⟩ :: byteEntriesFrom (t + 160) vs

/-- Bit entries back to back from sample `t`, 20 samples each (timing T20). -/
def bitEntriesFrom (t : Nat) : List Bool → List BitEntry
  | [] => []
  | b :: bs => ⟨b, t, t + 20⟩ :: bitEntriesFrom (t + 20) bs

/-- The state one tick before the last cell of `bs`'s command closes. A session that could not decode
(FATAL) is given the lowest rate that can. -/
def placeCommand (bs : List Byte) (s : State) : State :=
  let bytes := placedBytes bs
  let last := bytes.getLastD 0#8
  let opened := s.sidx + 10
  let lastByte := opened + 160 * (bytes.length - 1)
  let lastCell := lastByte + 140
  let cell := t20 (last.getLsbD 0)
  { s with
    started := true
    fatal := false
    rate := max Config.rMin s.rate
    ph := .initial
    byteq := byteEntriesFrom opened bytes.dropLast
    bitq := bitEntriesFrom lastByte ((byteBits last).take 7)
    cph := .seekEvent
    fall := lastCell
    low := cell.low
    rise := lastCell + cell.low
    riseValid := true
    prev := true
    prevValid := true
    sidx := lastCell + 20
    host := .sample false :: s.host }

end Sys2Proof.Machine
end

