-- ==== Sys2Proof/Machine/Operands.lean ====
section
/-! DEFINITION. The operand forms: the bits and bit slices of a byte (rules R7, R9), the packing of
eight bits into a byte (rule R161), and the fields of the response layouts (rules R103, R104). -/

namespace Sys2Proof.Machine

/-- `v[i]`, bit 0 the least significant (rules R7, R9). -/
def bitAt (v : Byte) (i : Nat) : Bool := v.getLsbD i

/-- `v[4:3]`, the two-bit fields of both identify bytes (rule R103). -/
def slice43 (v : Byte) : BitVec 2 := v.extractLsb' 3 2

/-- `v[2:0]`, the poll mode (rule R103). -/
def slice20 (v : Byte) : BitVec 3 := v.extractLsb' 0 3

/-- The weighted sum of rule R161, first bit received first. -/
def packSum (b0 b1 b2 b3 b4 b5 b6 b7 : Bool) : Nat :=
  b0.toNat * 128 + b1.toNat * 64 + b2.toNat * 32 + b3.toNat * 16
    + b4.toNat * 8 + b5.toNat * 4 + b6.toNat * 2 + b7.toNat

/-- Eight bits in order of arrival as a byte, most significant first (rules R62, R161). -/
def packByte (b0 b1 b2 b3 b4 b5 b6 b7 : Bool) : Byte :=
  BitVec.ofNat 8 (packSum b0 b1 b2 b3 b4 b5 b6 b7)

/-- The controller type of identify byte0: 0 N64, 1 GC, else unknown (rules R103, R219). -/
def controllerType (v : Byte) : BitVec 2 := slice43 v

/-- The fields of identify byte0 (rules R103, R219); bit 5 clear means rumble-capable. -/
def id0Of (v : Byte) : Id0 where
  wireless      := bitAt v 7
  bidir         := bitAt v 6
  rumbleCapable := !bitAt v 5
  ctype         := controllerType v
  standard      := bitAt v 0

/-- The fields of identify byte2 (rules R103, R220). -/
def id2Of (w : Byte) : Id2 where
  hadError      := bitAt w 7
  errorLatched  := bitAt w 6
  originNotSent := bitAt w 5
  rumbleMode    := slice43 w
  pollMode      := slice20 w

/-- The buttons of status byte0 (rules R104, R221). -/
def btn0Of (v : Byte) : Btn0 where
  a     := bitAt v 0
  b     := bitAt v 1
  x     := bitAt v 2
  y     := bitAt v 3
  start := bitAt v 4

/-- The buttons of status byte1 (rules R104, R222). -/
def btn1Of (w : Byte) : Btn1 where
  dl := bitAt w 0
  dr := bitAt w 1
  dd := bitAt w 2
  du := bitAt w 3
  z  := bitAt w 4
  r  := bitAt w 5
  l  := bitAt w 6

/-- A stick axis, `raw - 128` over the integers (rules R104, R217). -/
def stickAxis (raw : Byte) : Int := (raw.toNat : Int) - 128

end Sys2Proof.Machine
end

