-- ==== Sys2Proof/Machine/Ops.lean ====
section
/-! DEFINITION. The operations that the rules share: sequencing, the output stream, the queues, the
six exceptional events, `SessionStart`, and the parts of command completion. -/

namespace Sys2Proof.Machine

/-- Run `f` where `o` gives a next state; a stop stays a stop. -/
def andThen (o : Result) (f : State → Result) : Result :=
  match o with
  | .next s => f s
  | .fault r => .fault r
  | .refused r => .refused r

/-- `Out(start, end, cat, kind, payload)`: append one record to the output stream (rule R9). -/
def emit (start finish : Nat) (p : Payload) (s : State) : State :=
  { s with out := s.out ++ [⟨start, finish, p⟩] }

/-- `BITQ <- BITQ ++ [e]` (rule R160). -/
def pushBit (e : BitEntry) (s : State) : State := { s with bitq := s.bitq ++ [e] }

/-- `BYTEQ <- BYTEQ ++ [e]` (rule R165). -/
def pushByte (e : ByteEntry) (s : State) : State := { s with byteq := s.byteq ++ [e] }

/-- "Clear buffers": both queues emptied (rules R186, R187, R192). -/
def clearQueues (s : State) : State := { s with bitq := [], byteq := [] }

/-! ## Exceptional events -/

/-- Taking an event, in full (the table of rule R261). No event saves anything, switches a mode,
masks anything or records a value (rules R240, R261); a pair of events in one tick is the composition of their
effects (rule R263). -/
def takeEvent : Event → State → State
  | .configError, s     => { emit 0 0 .rateFatal s with fatal := true }
  | .rateLow, s         => emit 0 0 .rateLow s
  | .unknownOpcode, s   => { s with byteq := s.byteq.tail }
  | .responseTimeout, s => { clearQueues s with ph := .initial }
  | .desyncDiscard, s   => { s with bitq := [] }
  | .stopSlotZero, s    => s

/-- Where decoding goes on after an event taken in protocol phase `ph` (the last column of rule R261
and rule R262): there is no return instruction, normal decoding resumes by itself in this phase;
ConfigError has no return within the session (`none`). -/
def resumePhase : Event → ProtocolPhase → Option ProtocolPhase
  | .configError, _     => none
  | .rateLow, ph        => some ph
  | .unknownOpcode, ph  => some ph
  | .responseTimeout, _ => some .initial
  | .desyncDiscard, ph  => some ph
  | .stopSlotZero, ph   => some ph

/-- The cause code of an event (rule R240; decision D29). -/
def causeCode : Event → Nat
  | .configError     => 0
  | .rateLow         => 1
  | .unknownOpcode   => 2
  | .responseTimeout => 3
  | .desyncDiscard   => 4
  | .stopSlotZero    => 5

/-! ## Session start -/

/-- The register writes of `SessionStart` before its rate check (rule R281): every register, and an
output stream that begins empty. What the host will do next is not the machine's to change. -/
def initSession (rate gap : Nat) (s : State) : State :=
  { s with
    rate := rate, gap := gap
    sidx := 0
    cph := .seekFall
    prev := false, prevValid := false
    fall := 0, rise := 0, riseValid := false, low := 0
    ph := .initial
    bitq := [], byteq := []
    cmd := ⟨0x00#8, 0⟩, expLen := 0, tref := 0
    pollMode := 0#3, pollModeValid := false
    fatal := false
    started := true
    out := [] }

/-- The session-start rate check (rules R242, R244). -/
def rateCheck (s : State) : State :=
  if rateTooLow s.rate then takeEvent .configError s
  else if rateBorderline s.rate then takeEvent .rateLow s
  else s

/-- `SessionStart(R, DESYNC_GAP)` (rule R281). -/
def sessionStart (rate gap : Nat) (s : State) : State := rateCheck (initSession rate gap s)

/-! ## Command completion -/

/-- The first part of rule R174: latch the opcode, its first sample and the response length, and emit
the CMD record with the span of the opcode byte (decision D15). Called with the opcode byte at the
head of `BYTEQ`; with no byte there is nothing to latch. -/
def latchCommand (op : Byte) (respLen : Nat) (s : State) : State :=
  match s.byteq with
  | [] => s
  | e :: _ => emit e.start e.finish (.cmd op) { s with cmd := ⟨op, e.start⟩, expLen := respLen }

/-- The extra record of opcode 0x40 (rule R180): both parameter bytes, raw, over their joint span. -/
def emitCmdParam (mode rumble : Byte) (s : State) : State :=
  match s.byteq with
  | _ :: p1 :: p2 :: _ => emit p1.start p2.finish (.cmdParam mode rumble) s
  | _ => s

/-- The last part of rule R174: `BYTEQ <- []; PH <- AWAIT_COMMAND_STOP`. -/
def closeCommand (s : State) : State := { s with byteq := [], ph := .awaitCommandStop }

/-- `CommandComplete(n, r)` (rule R174) for opcode byte `op`. -/
def commandComplete (op : Byte) (respLen : Nat) (s : State) : State :=
  closeCommand (latchCommand op respLen s)

/-- The guard of rule R171: run the command rule once its `n` bytes are queued; until then wait
without any effect (rule R173). -/
def onceQueued (n : Nat) (s : State) (f : State → State) : Result :=
  if n ≤ s.byteq.length then .next (f s) else .next s

end Sys2Proof.Machine
end

