-- ==== Sys2Proof/Machine/Command.lean ====
section
/-! DEFINITION. The meaning of each of the seven commands: its command side (rules R175 to R181),
run when the bytes at the head of `BYTEQ` in INITIAL decode to it (rule R171). The response side of
the same opcodes runs ticks later, from the latched `CMD.op`, and is in `Machine/Response.lean`. -/

namespace Sys2Proof.Machine

/-- PROBE, 0x00: `CommandComplete(1, 3)` (rule R175). -/
def execProbe (s : State) : Result := onceQueued 1 s (commandComplete 0x00#8 3)

/-- RESET, 0xFF: `CommandComplete(1, 3)` (rule R176). It does not reset GCDEC. -/
def execReset (s : State) : Result := onceQueued 1 s (commandComplete 0xFF#8 3)

/-- ORIGIN, 0x41: `CommandComplete(1, 10)` (rule R177). -/
def execOrigin (s : State) : Result := onceQueued 1 s (commandComplete 0x41#8 10)

/-- CALIB, 0x42: `CommandComplete(1, 10)` (rule R178). -/
def execCalib (s : State) : Result := onceQueued 1 s (commandComplete 0x42#8 10)

/-- STATUSL, 0x43: `CommandComplete(1, 10)` (rule R179). -/
def execStatusl (s : State) : Result := onceQueued 1 s (commandComplete 0x43#8 10)

/-- STATUS, 0x40: `CommandComplete(3, 8)` with the CMD_PARAM record between the CMD record and the
queue clear (rule R180). -/
def execStatus (mode rumble : Byte) (s : State) : Result :=
  onceQueued 3 s fun s => closeCommand (emitCmdParam mode rumble (latchCommand 0x40#8 8 s))

/-- KBD, 0x54: `CommandComplete(3, 8)`; the two parameter bytes are counted, not interpreted
(rule R181). -/
def execKbd (_param1 _param2 : Byte) (s : State) : Result :=
  onceQueued 3 s (commandComplete 0x54#8 8)

end Sys2Proof.Machine
end

