-- ==== Sys2Proof/Machine/Dispatch.lean ====
section
/-! DEFINITION. The one dispatch from a decoded command to its meaning. -/

namespace Sys2Proof.Machine

/-- What a recognised command does once its bytes are queued (rules R171, R175 to R181). -/
def exec (i : Instr) (s : State) : Host.Outcome State Fault Refusal :=
  match i with
  | .probe => Sys2Proof.Machine.execProbe s
  | .reset => Sys2Proof.Machine.execReset s
  | .origin => Sys2Proof.Machine.execOrigin s
  | .calib => Sys2Proof.Machine.execCalib s
  | .statusl => Sys2Proof.Machine.execStatusl s
  | .status mode rumble => Sys2Proof.Machine.execStatus mode rumble s
  | .kbd param1 param2 => Sys2Proof.Machine.execKbd param1 param2 s

end Sys2Proof.Machine
end

