-- ==== Sys2Proof/Machine/Response.lean ====
section
/-! DEFINITION. The response payload decoder tree: the field emitters (rules R217, R219 to R224), one
rule per opcode (rules R211 to R216, R218) and the dispatch on the latched opcode (rule R210).
Decoders read `BYTEQ` without changing it, and never fail on a byte value (rule R226). -/

namespace Sys2Proof.Machine

/-- One field record over the bytes `B[i]` to `B[j]` of the response (rule R123), its payload made of
the values of those two. Where a byte is not queued, which no run reaches (log entry 6), nothing is
emitted. -/
def emitField (i j : Nat) (p : Byte → Byte → Payload) (s : State) : State :=
  match s.byteq[i]?, s.byteq[j]? with
  | some a, some b => emit a.start b.finish (p a.val b.val) s
  | _, _ => s

/-! ## Field records -/

/-- `EmitID0()` (rule R219). -/
def emitId0 (s : State) : State := emitField 0 0 (fun v _ => .id0 (id0Of v)) s

/-- `EmitID2()` (rule R220): the record, then the only write to `POLLMODE` and `POLLMODE_VALID`
outside reset. -/
def emitId2 (s : State) : State :=
  match s.byteq[2]? with
  | some e =>
    { emit e.start e.finish (.id2 (id2Of e.val)) s with
      pollMode := slice20 e.val, pollModeValid := true }
  | none => s

/-- `EmitBTN0()` (rule R221). -/
def emitBtn0 (s : State) : State := emitField 0 0 (fun v _ => .btn0 (btn0Of v)) s

/-- `EmitBTN1()` (rule R222). -/
def emitBtn1 (s : State) : State := emitField 1 1 (fun w _ => .btn1 (btn1Of w)) s

/-- `EmitStick(STICK, 2)` (rule R217). -/
def emitMainStick (s : State) : State :=
  emitField 2 3 (fun x y => .stick (stickAxis x) (stickAxis y)) s

/-- `EmitStick(CSTICK, 4)` (rule R217). -/
def emitCStick (s : State) : State :=
  emitField 4 5 (fun x y => .cstick (stickAxis x) (stickAxis y)) s

/-- `EmitTRIG()` (rule R223). -/
def emitTrig (s : State) : State := emitField 6 7 (fun l r => .trig l r) s

/-- `EmitORIGIN()` (rule R224): raw and unsigned. -/
def emitOrigin (s : State) : State := emitField 8 9 (fun x y => .origin x y) s

/-! ## One rule per opcode -/

/-- Whether response byte0 reports controller type GC (rule R211). -/
def reportsGc (s : State) : Bool :=
  match s.byteq[0]? with
  | some e => controllerType e.val == 1#2
  | none => false

/-- `DecodeIdentify()` (rule R211). -/
def decodeIdentify (s : State) : State :=
  if reportsGc s then emitId2 (emitId0 s) else emitId0 s

/-- `DecodeStatus()` (rule R213): fields in ascending byte order, the origin bytes only where the
response length is 10. -/
def decodeStatus (s : State) : State :=
  let fields := emitTrig (emitCStick (emitMainStick (emitBtn1 (emitBtn0 s))))
  if s.expLen = 10 then emitOrigin fields else fields

/-- Response to PROBE (rule R211). -/
def rspProbe (s : State) : State := decodeIdentify s

/-- Response to RESET (rule R212). -/
def rspReset (s : State) : State := decodeIdentify s

/-- Response to STATUS (rule R213). -/
def rspStatus (s : State) : State := decodeStatus s

/-- Response to ORIGIN (rule R214). -/
def rspOrigin (s : State) : State := decodeStatus s

/-- Response to CALIB (rule R215). -/
def rspCalib (s : State) : State := decodeStatus s

/-- Response to STATUSL (rule R216). -/
def rspStatusl (s : State) : State := decodeStatus s

/-- Response to KBD (rule R218): counted, not decoded. -/
def rspKbd (s : State) : State := s

/-- `DecodeResponse()` (rule R210): dispatch on the opcode latched in `CMD.op` (rule R72). The last
arm is unreachable and does nothing (rule R225). -/
def decodeResponse (s : State) : State :=
  match Opcode.ofByte s.cmd.op with
  | some .probe => rspProbe s
  | some .reset => rspReset s
  | some .status => rspStatus s
  | some .origin => rspOrigin s
  | some .calib => rspCalib s
  | some .statusl => rspStatusl s
  | some .kbd => rspKbd s
  | none => s

end Sys2Proof.Machine
end

