-- ==== Sys2Proof/Machine/Framing.lean ====
section
/-! DEFINITION. The frame state machine: byte events (rules R170 to R173, R190), stop slots (rules R185
to R188) and the response timeout (rule R192). -/

namespace Sys2Proof.Machine

/-- The values queued in `BYTEQ`, oldest first. -/
def queuedBytes (s : State) : List Byte := s.byteq.map (·.val)

/-- `InitialStep()` (rule R171): inspect the head of the queue; a complete command runs, an
unrecognised byte is discarded (rules R172, R245), a three-byte command waits (rule R173). -/
def initialStep (s : State) : Result :=
  match decode (queuedBytes s) with
  | .command i => exec i s
  | .unknownOpcode _ => .next (takeEvent .unknownOpcode s)
  | .awaiting _ => .next s
  | .empty => .next s

/-- `ResponseStep()` (rule R190). -/
def responseStep (s : State) : State :=
  if s.expLen ≤ s.byteq.length then { decodeResponse s with ph := .awaitResponseStop } else s

/-- `FrameStep()` (rule R170): no byte arrives in a stop phase. -/
def frameStep (s : State) : Result :=
  match s.ph with
  | .initial => initialStep s
  | .awaitResponseBytes => .next (responseStep s)
  | .awaitCommandStop => .next s
  | .awaitResponseStop => .next s

/-- `CommandStop(s, e)` (rule R186): the timeout reference is the command's first sample
(conflict C2). -/
def commandStop (start finish : Nat) (s : State) : State :=
  { clearQueues (emit start finish .stop s) with tref := s.cmd.first, ph := .awaitResponseBytes }

/-- `ResponseStop(s, e)` (rule R187). -/
def responseStop (start finish : Nat) (s : State) : State :=
  { clearQueues (emit start finish .stop s) with ph := .initial }

/-- `StopSlot(b, s, e)` (rule R185): called in the two stop phases only. -/
def stopSlot (b : Bool) (start finish : Nat) (s : State) : State :=
  if b then
    match s.ph with
    | .awaitCommandStop => commandStop start finish s
    | .awaitResponseStop | .initial | .awaitResponseBytes => responseStop start finish s
  else takeEvent .stopSlotZero s

/-- Whether the response timeout applies at sample `t` (rules R192, R246). -/
def timeoutDue (t : Nat) (s : State) : Bool :=
  decide (s.ph = .awaitResponseBytes) && timeoutReached s.rate s.tref t

/-- `TimeoutCheck(t)` (rule R192). -/
def timeoutCheck (t : Nat) (s : State) : State :=
  if timeoutDue t s then takeEvent .responseTimeout s else s

end Sys2Proof.Machine
end

