-- ==== Sys2Proof/Machine/Assembler.lean ====
section
/-! DEFINITION. The byte assembler: `AcceptBit`, `Assemble`, `EmitByte` (rules R160 to R165). -/

namespace Sys2Proof.Machine

/-- `EmitByte(v, s, e)` (rule R165). -/
def emitByte (v : Byte) (start finish : Nat) (s : State) : Result :=
  frameStep (pushByte ⟨v, start, finish⟩ (emit start finish (.byte v) s))

/-- `Assemble()` (rules R161, R162): the eight oldest bits, most significant first, make a byte whose
span runs from the first bit's start to the eighth bit's end; later bits stay queued. With fewer than
eight bits queued it is not called (rule R160) and does nothing. -/
def assemble (s : State) : Result :=
  match s.bitq with
  | b0 :: b1 :: b2 :: b3 :: b4 :: b5 :: b6 :: b7 :: rest =>
    emitByte (packByte b0.val b1.val b2.val b3.val b4.val b5.val b6.val b7.val)
      b0.start b7.finish { s with bitq := rest }
  | _ => .next s

/-- Whether `PH` is a stop phase, in which bits bypass `BITQ` (rules R47, R164). -/
def inStopSlot (s : State) : Bool :=
  match s.ph with
  | .awaitCommandStop | .awaitResponseStop => true
  | .initial | .awaitResponseBytes => false

/-- Assemble once eight bits are queued (rule R160). -/
def assembleIfFull (s : State) : Result :=
  if Config.bitqDepth ≤ s.bitq.length then assemble s else .next s

/-- `AcceptBit(b, s, e)` (rule R160). -/
def acceptBit (b : Bool) (start finish : Nat) (s : State) : Result :=
  if inStopSlot s then .next (stopSlot b start finish s)
  else assembleIfFull (pushBit ⟨b, start, finish⟩ s)

end Sys2Proof.Machine
end

