-- ==== Sys2Proof/Machine/Classifier.lean ====
section
/-! DEFINITION. The edge tracker and bit classifier (rules R130 to R142). -/

namespace Sys2Proof.Machine

/-- The edge that sample `din` shows (rule R130). -/
def State.edge (s : State) (din : Bool) : Edge := detectEdge s.prevValid s.prev din

/-- `DesyncCheck(t)` (rules R136, R247). -/
def desyncCheck (t : Nat) (s : State) : State :=
  if gapExceeded s.riseValid s.rise s.gap t then takeEvent .desyncDiscard s else s

/-- `EmitBit(b, s, e)` (rule R137): every classified bit has its record, also in a stop slot
(decision D14). -/
def emitBit (b : Bool) (start finish : Nat) (s : State) : Result :=
  acceptBit b start finish (emit start finish (.bit b) s)

/-- The common end of rules R131 and R133 at a falling edge: `DesyncCheck(t); FALL <- t;
CPH <- SEEK_RISE`. -/
def openCell (t : Nat) (s : State) : State :=
  { desyncCheck t s with fall := t, cph := .seekRise }

/-- Step 2 at a rising edge (rule R132). -/
def recordRise (t : Nat) (s : State) : State :=
  { s with rise := t, low := t - s.fall, riseValid := true, cph := .seekEvent }

/-- Step 3 closed by a falling edge (rule R133): the bit is handed on before the desync check of the
same edge (decision D9). -/
def closeByFall (t : Nat) (s : State) : Result :=
  andThen (emitBit (bitValue (t - s.rise) s.low) s.fall t s) fun s' => .next (openCell t s')

/-- Step 3 closed by idle (rule R134). -/
def closeByIdle (t : Nat) (s : State) : Result :=
  andThen (emitBit true s.fall t s) fun s' => .next { s' with cph := .seekFall }

/-- The classifier's part of a tick, for the sample whose edge is `e` (rules R131 to R135, R139, R260):
in SEEK_EVENT a falling edge beats the idle condition (rule R135); every other input changes
nothing. -/
def classify (e : Edge) (s : State) : Result :=
  match s.cph, e with
  | .seekFall, .falling => .next (openCell s.sidx s)
  | .seekFall, .none | .seekFall, .rising => .next s
  | .seekRise, .rising => .next (recordRise s.sidx s)
  | .seekRise, .none | .seekRise, .falling => .next s
  | .seekEvent, .falling => closeByFall s.sidx s
  | .seekEvent, .none | .seekEvent, .rising =>
    if idleReached (s.sidx - s.rise) s.low then closeByIdle s.sidx s else .next s

end Sys2Proof.Machine
end

