-- ==== Sys2Proof/Machine/Tick.lean ====
section
/-! DEFINITION. `Tick(din)`: the whole machine, one sample (rule R260). -/

namespace Sys2Proof.Machine

/-- The last line of a tick: `PREV <- din; PREV_VALID <- 1; SIDX <- t + 1` (rules R21, R23). -/
def advance (din : Bool) (t : Nat) (s : State) : State :=
  { s with prev := din, prevValid := true, sidx := t + 1 }

/-- What a tick does after the classifier: the timeout test, then the advance (rule R260). -/
def finishTick (din : Bool) (t : Nat) (s : State) : State := advance din t (timeoutCheck t s)

/-- `Tick(din)` (rules R243, R260): a FATAL session ignores its samples. -/
def tick (din : Bool) (s : State) : Result :=
  if s.fatal then .next s
  else andThen (classify (s.edge din) s) fun s' => .next (finishTick din s.sidx s')

end Sys2Proof.Machine
end

