-- ==== Sys2Proof/Machine/Step.lean ====
section
/-! DEFINITION. One step of the machine: the host's next act (rules R13, R55), and the placing of a
command for the very next step. -/

namespace Sys2Proof.Machine

/-- One step: the host starts a session (rule R281) or supplies a sample, which one tick consumes
(rules R8, R260). Where the host supplies nothing the machine waits unchanged (rule R13; log entry 1).
A sample before the first `SessionStart` after power-up is refused by name (rule R280, U6). -/
def step (s : State) : Host.Outcome State Fault Refusal :=
  match s.host with
  | [] => .next s
  | .sessionStart rate gap :: rest => .next (sessionStart rate gap { s with host := rest })
  | .sample din :: rest =>
    if s.started then tick din { s with host := rest } else .refused .tickBeforeSessionStart

/-- `s` with the command whose table word is `w` one sample away from running (log entry 9). -/
def State.withFetchWord (s : State) (nbits w : Nat) : State := placeCommand (tableBytes nbits w) s

end Sys2Proof.Machine
end

