-- ==== Sys2Proof/Machine/Records.lean ====
section
/-! DEFINITION. The encoding of output records on the annotation port: categories (rule R120), kinds
(rule R121), payload packing (rule R122), and the numeric codes of the phases (rules R22, R27). The
codes and the packing are the specification's decision D17. -/

namespace Sys2Proof.Machine

/-- The category of a record's kind (rule R121). -/
def Payload.category : Payload → Category
  | .bit _ => .bit
  | .byte _ => .byte
  | .stop => .stopBit
  | .cmd _ | .cmdParam _ _ => .command
  | .id0 _ | .id2 _ | .btn0 _ | .btn1 _ | .stick _ _ | .cstick _ _ | .trig _ _ | .origin _ _ =>
    .responseField
  | .rateFatal | .rateLow => .warning

/-- `ann_cat` (rule R120). -/
def Category.code : Category → BitVec 3
  | .bit => 0 | .byte => 1 | .stopBit => 2 | .command => 3 | .responseField => 4 | .warning => 5

/-- `ann_kind` (rule R121). -/
def Payload.kindCode : Payload → BitVec 3
  | .bit _ => 0 | .byte _ => 0 | .stop => 0
  | .cmd _ => 0 | .cmdParam _ _ => 1
  | .id0 _ => 0 | .id2 _ => 1 | .btn0 _ => 2 | .btn1 _ => 3
  | .stick _ _ => 4 | .cstick _ _ => 5 | .trig _ _ => 6 | .origin _ _ => 7
  | .rateFatal => 0 | .rateLow => 1

/-- One flag of a payload at its bit position. -/
def flagAt (b : Bool) (i : Nat) : BitVec 16 := (BitVec.ofBool b).setWidth 16 <<< i

/-- A field of a payload whose lowest bit is at position `i`. -/
def fieldAt {w : Nat} (v : BitVec w) (i : Nat) : BitVec 16 := v.setWidth 16 <<< i

/-- `[15:8]` = `hi`, `[7:0]` = `lo`. -/
def pair16 (hi lo : Byte) : BitVec 16 := fieldAt hi 8 ||| fieldAt lo 0

/-- A stick axis as an 8-bit two's-complement number (rule R122). -/
def axisByte (x : Int) : Byte := BitVec.ofInt 8 x

/-- `ann_payload` (rule R122); bits no field names are 0. -/
def Payload.pack : Payload → BitVec 16
  | .bit v => flagAt v 0
  | .byte v => fieldAt v 0
  | .stop => 0
  | .cmd op => fieldAt op 0
  | .cmdParam mode rumble => pair16 mode rumble
  | .id0 f => flagAt f.wireless 5 ||| flagAt f.bidir 4 ||| flagAt f.rumbleCapable 3
      ||| fieldAt f.ctype 1 ||| flagAt f.standard 0
  | .id2 f => flagAt f.hadError 7 ||| flagAt f.errorLatched 6 ||| flagAt f.originNotSent 5
      ||| fieldAt f.rumbleMode 3 ||| fieldAt f.pollMode 0
  | .btn0 f => flagAt f.a 0 ||| flagAt f.b 1 ||| flagAt f.x 2 ||| flagAt f.y 3
      ||| flagAt f.start 4
  | .btn1 f => flagAt f.dl 0 ||| flagAt f.dr 1 ||| flagAt f.dd 2 ||| flagAt f.du 3
      ||| flagAt f.z 4 ||| flagAt f.r 5 ||| flagAt f.l 6
  | .stick x y => pair16 (axisByte x) (axisByte y)
  | .cstick x y => pair16 (axisByte x) (axisByte y)
  | .trig left right => pair16 left right
  | .origin x y => pair16 x y
  | .rateFatal => 0
  | .rateLow => 0

/-- `CPH` as an implementation encodes it (rule R22). -/
def ClassifierPhase.code : ClassifierPhase → BitVec 2
  | .seekFall => 0 | .seekRise => 1 | .seekEvent => 2

/-- `PH` as an implementation encodes it and as port `phase` shows it (rules R27, R55). -/
def ProtocolPhase.code : ProtocolPhase → BitVec 2
  | .initial => 0 | .awaitCommandStop => 1 | .awaitResponseBytes => 2 | .awaitResponseStop => 3

end Sys2Proof.Machine
end

