-- ==== Sys2Proof/Machine/Ports.lean ====
section
/-! DEFINITION. The ports of rule R55 as views of the model: what the input ports ask for at a sample
clock edge, the annotation port's values for a record, and the observation ports. -/

namespace Sys2Proof.Machine

/-- The input ports at one rising edge of `clk` (rule R55). -/
structure InPorts where
  start   : Bool
  cfgRate : BitVec 32
  cfgGap  : Nat
  din     : Bool
deriving DecidableEq, Repr

/-- What the input ports ask for: `SessionStart` while `start` is high, otherwise a tick that
consumes `din` (rule R55). -/
def InPorts.act (p : InPorts) : HostAct :=
  if p.start then .sessionStart p.cfgRate.toNat p.cfgGap else .sample p.din

/-- The annotation port while `ann_valid` is 1 (rule R55). -/
structure AnnPort where
  start   : Nat
  finish  : Nat
  cat     : BitVec 3
  kind    : BitVec 3
  payload : BitVec 16
deriving DecidableEq, Repr

/-- A record as the annotation port carries it (rules R120 to R122). -/
def Record.toPort (r : Record) : AnnPort where
  start   := r.start
  finish  := r.finish
  cat     := r.payload.category.code
  kind    := r.payload.kindCode
  payload := r.payload.pack

/-- The observation ports (rule R55). -/
structure OutPorts where
  fatal         : Bool
  pollMode      : BitVec 3
  pollModeValid : Bool
  phase         : BitVec 2
deriving DecidableEq, Repr

/-- What the observation ports show. -/
def State.ports (s : State) : OutPorts where
  fatal         := s.fatal
  pollMode      := s.pollMode
  pollModeValid := s.pollModeValid
  phase         := s.ph.code

end Sys2Proof.Machine
end

