-- ==== Sys2Proof/Safety.lean ====
section
/-! DEFINITION. What a sound state of GCDEC is: the invariants of rule R48, which the specification
derives and the statements of the package claim of every step. -/

namespace Sys2Proof.Machine

/-- A session is running and decodes: "A claim about decoded output therefore needs `FATAL = 0`"
(rule R243). -/
abbrev State.Decoding (s : State) : Prop := s.started = true ∧ s.fatal = false

/-- The host's next act is the sample `d`, and `acts` are the ones after it. -/
abbrev State.SampleNext (d : Bool) (acts : List HostAct) (s : State) : Prop :=
  s.host = .sample d :: acts

/-- Rule R48 items 1, 2, 3, 6 and 7: the queues' lengths by phase, the only heads that wait in
INITIAL, and the latched opcode with its response length outside INITIAL. -/
abbrev State.QueuesSound (s : State) : Prop :=
  s.bitq.length ≤ 7 ∧ s.byteq.length ≤ 10 ∧
  (s.ph = .initial → s.byteq.length ≤ 2) ∧
  (s.ph = .initial → ∀ e ∈ s.byteq.head?, e.val = 0x40#8 ∨ e.val = 0x54#8) ∧
  (s.ph = .awaitCommandStop → s.byteq = []) ∧
  (s.ph = .awaitResponseBytes → s.byteq.length < s.expLen) ∧
  (s.ph = .awaitResponseStop → s.byteq.length = s.expLen) ∧
  (s.ph = .awaitCommandStop ∨ s.ph = .awaitResponseStop → s.bitq = []) ∧
  (s.ph ≠ .initial → (Opcode.ofByte s.cmd.op).map Opcode.respLen = some s.expLen)

/-- Rule R48 item 4 with rule R140 (a) to (c): what each classifier phase says of the line and of the
cell in progress. -/
abbrev State.CellSound (s : State) : Prop :=
  (s.cph = .seekRise → s.prevValid = true ∧ s.prev = false ∧ s.fall < s.sidx) ∧
  (s.cph = .seekEvent → s.prevValid = true ∧ s.prev = true ∧ s.riseValid = true ∧
    s.fall < s.rise ∧ s.low = s.rise - s.fall ∧ s.rise < s.sidx ∧ s.sidx - s.rise ≤ 4 * s.low)

/-- Up to where queued spans may reach: the start of the cell in progress, or now. -/
def State.horizon (s : State) : Nat := if s.cph = .seekFall then s.sidx else s.fall

/-- The spans of the queued entries, oldest first: bytes, then the bits of the byte in progress. -/
def State.spans (s : State) : List (Nat × Nat) :=
  s.byteq.map (fun e => (e.start, e.finish)) ++ s.bitq.map (fun e => (e.start, e.finish))

/-- A record's span: `(0, 0)` for a warning, else a span of at least one sample that has ended by
sample index `t` (rule R48 item 5, rule R301). -/
abbrev Record.spanBy (t : Nat) (r : Record) : Prop :=
  (r.payload.category = .warning ∧ r.start = 0 ∧ r.finish = 0) ∨
  (r.payload.category ≠ .warning ∧ r.start < r.finish ∧ r.finish ≤ t)

/-- Rule R48 item 5: no register is ahead of the sample index, and every span, queued or emitted, is
forward in time; queued spans follow one another. -/
abbrev State.TimesSound (s : State) : Prop :=
  s.fall ≤ s.sidx ∧ s.rise ≤ s.sidx ∧ s.tref ≤ s.sidx ∧ s.cmd.first ≤ s.sidx ∧
  (∀ p ∈ s.spans, p.1 < p.2 ∧ p.2 ≤ s.horizon) ∧
  s.spans.Pairwise (fun p q => p.2 ≤ q.1) ∧
  (∀ r ∈ s.out, r.spanBy s.sidx)

/-- `FATAL` is the result of the rate check, and a FATAL session has consumed no sample (rules R21, R40,
R243). -/
abbrev State.RateSound (s : State) : Prop :=
  s.fatal = rateTooLow s.rate ∧ (s.fatal = true → s.sidx = 0)

/-- The invariant of rule R48, with the facts it rests on. -/
abbrev State.Sound (s : State) : Prop :=
  s.QueuesSound ∧ s.CellSound ∧ s.TimesSound ∧ s.RateSound

end Sys2Proof.Machine
end

