-- ==== Sys2Proof/Certificates/Slice0/Obligations.lean ====
section
/-! DEFINITION. The statements for the provers. Each docstring names the rule it formalises, or says
what the statement is derived from; `OBLIGATIONS.json` lists them in this order. -/

open Sys2Proof Sys2Proof.Machine

/-! ## Encoding -/

/-- The opcode table row by row, and the words of `opcode_table.json` with their decodings: the match is
exact on all eight bits, and the other 249 byte values are no command. The rows and the last clause are
derived from rule R100. How a word is laid out as bytes, and that the parameter bytes above an
eight-bit word are 0x00 (on the wire the byte 0x40 or 0x54 alone waits, rule R173), are the model's
choice (log entry 9). -/
def Obligations.OpcodeTableAsSpecified : Prop :=
  Opcode.all.map (fun o => (o, o.byte.toNat, o.cmdLen, o.respLen)) =
    [(.probe, 0x00, 1, 3), (.reset, 0xFF, 1, 3), (.origin, 0x41, 1, 10), (.calib, 0x42, 1, 10),
     (.statusl, 0x43, 1, 10), (.status, 0x40, 3, 8), (.kbd, 0x54, 3, 8)] ∧
  decodeTableWord 8 0x00 = some .probe ∧ decodeTableWord 8 0xFF = some .reset ∧
  decodeTableWord 8 0x41 = some .origin ∧ decodeTableWord 8 0x42 = some .calib ∧
  decodeTableWord 8 0x43 = some .statusl ∧ decodeTableWord 8 0x40 = some (.status 0 0) ∧
  decodeTableWord 8 0x54 = some (.kbd 0 0) ∧
  decodeTableWord 24 0x000340 = some (.status 0x03 0x00) ∧
  decodeTableWord 24 0xA55A54 = some (.kbd 0x5A 0xA5) ∧
  ∀ b : Byte, b ∉ [0x00#8, 0xFF#8, 0x41#8, 0x42#8, 0x43#8, 0x40#8, 0x54#8] →
    ∀ rest, decode (b :: rest) = .unknownOpcode b

/-- Decode and encode agree for every command, whatever is queued behind it: bytes decode to a command
exactly when they begin with its encoding. Derived from rules R92, R93, R95 and R171. -/
def Obligations.DecodeInvertsEncode : Prop :=
  ∀ (i : Instr) (bs : List Byte), decode bs = .command i ↔ ∃ rest, bs = encode i ++ rest

/-- Every byte survives the wire: its bits in wire order pack to it again, and no other eight bits do.
Derived from rules R62 and R161. -/
def Obligations.WireBitsPackBack : Prop :=
  ∀ (v : Byte) (b0 b1 b2 b3 b4 b5 b6 b7 : Bool),
    packByte b0 b1 b2 b3 b4 b5 b6 b7 = v ↔ byteBits v = [b0, b1, b2, b3, b4, b5, b6, b7]

/-- The packing of every record kind, by the positions of its fields; what no field names is 0. A stick
axis is packed modulo 256, two's complement. Derived from rule R122, whose packing is the
specification's decision D17. -/
def Obligations.PayloadPacking : Prop :=
  (∀ v, (Payload.bit v).pack.toNat = v.toNat) ∧
  (∀ v, (Payload.byte v).pack.toNat = v.toNat) ∧
  Payload.stop.pack = 0 ∧
  (∀ op, (Payload.cmd op).pack.toNat = op.toNat) ∧
  (∀ m r, (Payload.cmdParam m r).pack.toNat = 256 * m.toNat + r.toNat) ∧
  (∀ f, (Payload.id0 f).pack.toNat = 32 * f.wireless.toNat + 16 * f.bidir.toNat
    + 8 * f.rumbleCapable.toNat + 2 * f.ctype.toNat + f.standard.toNat) ∧
  (∀ f, (Payload.id2 f).pack.toNat = 128 * f.hadError.toNat + 64 * f.errorLatched.toNat
    + 32 * f.originNotSent.toNat + 8 * f.rumbleMode.toNat + f.pollMode.toNat) ∧
  (∀ f, (Payload.btn0 f).pack.toNat = f.a.toNat + 2 * f.b.toNat + 4 * f.x.toNat + 8 * f.y.toNat
    + 16 * f.start.toNat) ∧
  (∀ f, (Payload.btn1 f).pack.toNat = f.dl.toNat + 2 * f.dr.toNat + 4 * f.dd.toNat + 8 * f.du.toNat
    + 16 * f.z.toNat + 32 * f.r.toNat + 64 * f.l.toNat) ∧
  (∀ x y, ((Payload.stick x y).pack.toNat : Int) = 256 * (x % 256) + y % 256) ∧
  (∀ x y, ((Payload.cstick x y).pack.toNat : Int) = 256 * (x % 256) + y % 256) ∧
  (∀ l r, (Payload.trig l r).pack.toNat = 256 * l.toNat + r.toNat) ∧
  (∀ x y, (Payload.origin x y).pack.toNat = 256 * x.toNat + y.toNat) ∧
  Payload.rateFatal.pack = 0 ∧ Payload.rateLow.pack = 0

/-- The annotation port tells any two records apart, as long as stick axes are in the range rule R217
gives them. Derived from rules R120 to R122: within a category the kind tells records apart. -/
def Obligations.PortTellsRecordsApart : Prop :=
  ∀ r r' : Record,
    (∀ p ∈ [r.payload, r'.payload], ∀ x y, p = .stick x y ∨ p = .cstick x y →
      (-128 ≤ x ∧ x ≤ 127) ∧ (-128 ≤ y ∧ y ≤ 127)) →
    r.toPort = r'.toPort → r = r'

/-! ## Session start -/

/-- Rule R281. `SessionStart` in full: the value of every register afterwards, whatever the state was,
and the zero or one warning record that begins the session's output. -/
def Obligations.SessionStartWritesEveryRegister : Prop :=
  ∀ (rate gap : Nat) (acts : List HostAct) (s : State),
    s.host = .sessionStart rate gap :: acts →
    step s = .next
      { sidx := 0, cph := .seekFall, prev := false, prevValid := false
        fall := 0, rise := 0, riseValid := false, low := 0
        ph := .initial, bitq := [], byteq := [], cmd := ⟨0x00#8, 0⟩, expLen := 0, tref := 0
        pollMode := 0#3, pollModeValid := false
        fatal := decide (rate < 2000000), rate := rate, gap := gap
        started := true, host := acts
        out := if rate < 2000000 then [⟨0, 0, .rateFatal⟩]
          else if rate < 5000000 then [⟨0, 0, .rateLow⟩] else [] }

/-- `State.reset` is the state that a session start with the arguments of log entry 3 leaves. The two
argument values are the model's choice (log entry 3), not the specification's. -/
def Obligations.ResetIsASessionStart : Prop :=
  ∀ s : State, s.host = [] → sessionStart 5000000 100 s = State.reset

/-- Rule R242. A missing rate (0) or one below 2,000,000 Hz is the fatal configuration error, with its
warning record first; at 2,000,000 Hz it is not. -/
def Obligations.LowRateIsConfigError : Prop :=
  ∀ (rate gap : Nat) (s : State),
    ((sessionStart rate gap s).fatal = true ↔ rate < 2000000) ∧
    ((sessionStart rate gap s).out = [⟨0, 0, .rateFatal⟩] ↔ rate < 2000000)

/-- Rule R244. From 2,000,000 up to but not including 5,000,000 Hz the session decodes and its first
record is the advisory warning; from 5,000,000 Hz there is none. -/
def Obligations.BorderlineRateWarns : Prop :=
  ∀ (rate gap : Nat) (s : State), 2000000 ≤ rate →
    (sessionStart rate gap s).fatal = false ∧
    (sessionStart rate gap s).out = (if rate < 5000000 then [⟨0, 0, .rateLow⟩] else [])

/-- Rule R243. In a FATAL session any number of samples changes no register and emits nothing, and only
a `SessionStart` leaves it. -/
def Obligations.FatalSessionIgnoresSamples : Prop :=
  (∀ (ds : List Bool) (acts : List HostAct) (s : State), s.started = true → s.fatal = true →
    s.host = ds.map HostAct.sample ++ acts →
    Sys2Proof.core.run ds.length s = .next { s with host := acts }) ∧
  (∀ s t : State, s.started = true → s.fatal = true → step s = .next t → t.fatal = false →
    ∃ rate gap acts, s.host = .sessionStart rate gap :: acts)

/-- Two machines in any two states that are given the same session start and then the same acts run
alike from then on. Derived from rule R282. -/
def Obligations.SessionsDoNotLeak : Prop :=
  ∀ (s s' : State) (rate gap : Nat) (acts : List HostAct) (n : Nat),
    s.host = .sessionStart rate gap :: acts → s'.host = .sessionStart rate gap :: acts →
    Sys2Proof.core.run (n + 1) s = Sys2Proof.core.run (n + 1) s'

/-! ## Steps -/

/-- A step never faults, and is refused exactly for a sample that comes before the first session start
(the refusal is the model's, log entry 2, from rule R280 and U6; that nothing else stops is rule R249).
Every other state, whatever it holds, has a next state. -/
def Obligations.StepStopsOnlyBeforeSession : Prop :=
  ∀ s : State,
    (s.started = false → ∀ d acts, s.SampleNext d acts → step s = .refused .tickBeforeSessionStart) ∧
    ((s.started = true ∨ ∀ d acts, ¬ s.SampleNext d acts) → ∃ t, step s = .next t)

/-- With no act from the host the machine waits unchanged. The model's choice (log entry 1). -/
def Obligations.SilentHostChangesNothing : Prop :=
  ∀ s : State, s.host = [] → step s = .next s

/-- A sample changes no session register: rate, gap, FATAL; only the host's list gets shorter. Derived
from rules R40 to R42 and R265. -/
def Obligations.SamplesKeepTheSession : Prop :=
  ∀ (s t : State) (d : Bool) (acts : List HostAct), s.SampleNext d acts → step s = .next t →
    t.rate = s.rate ∧ t.gap = s.gap ∧ t.fatal = s.fatal ∧ t.started = s.started ∧ t.host = acts

/-- Every tick of a decoding session runs the classifier's part, then the timeout test, then counts one
sample and remembers its level. Derived from rules R21, R23 and R260. -/
def Obligations.TickCountsOneSample : Prop :=
  ∀ (s : State) (d : Bool) (acts : List HostAct), s.Decoding → s.SampleNext d acts →
    (step s = andThen (classify (s.edge d) { s with host := acts }) fun u =>
      .next { timeoutCheck s.sidx u with prev := d, prevValid := true, sidx := s.sidx + 1 }) ∧
    ∃ t, step s = .next t ∧ t.sidx = s.sidx + 1 ∧ t.prev = d ∧ t.prevValid = true

/-- When the bit that closes the last cell of a byte in INITIAL completes a command, the step is that
command's `exec`, on the state with the byte queued and annotated; around it the step adds the host's
list, the edge tracker's registers, the desync check, the timeout test and the advance. One clause for
each of the two events that close a cell. Derived from rules R165, R171 and R260. -/
def Obligations.StepRunsDecodedCommand : Prop :=
  ∀ (s : State) (acts : List HostAct) (i : Instr) (b0 b1 b2 b3 b4 b5 b6 : BitEntry) (b : Bool)
    (v : Byte),
    s.Decoding → s.cph = .seekEvent → s.prevValid = true → s.prev = true → s.ph = .initial →
    s.bitq = [b0, b1, b2, b3, b4, b5, b6] →
    v = packByte b0.val b1.val b2.val b3.val b4.val b5.val b6.val b →
    decode (queuedBytes s ++ [v]) = .command i →
    let ready : State :=
      { s with
        host := acts, bitq := [], byteq := s.byteq ++ [⟨v, b0.start, s.sidx⟩]
        out := s.out ++ [⟨s.fall, s.sidx, .bit b⟩, ⟨b0.start, s.sidx, .byte v⟩] }
    (s.SampleNext false acts → b = bitValue (s.sidx - s.rise) s.low →
      step s = andThen (exec i ready) fun t =>
        .next (finishTick false s.sidx (openCell s.sidx t))) ∧
    (s.SampleNext true acts → b = true → 4 * s.low ≤ s.sidx - s.rise →
      step s = andThen (exec i ready) fun t =>
        .next (finishTick true s.sidx { t with cph := .seekFall }))

/-- A table word's command, placed, runs in the very next step, from any state. The placing is the
model's (log entry 9). -/
def Obligations.FetchWordRunsItsCommand : Prop :=
  ∀ (s : State) (nbits w : Nat) (i : Instr), decodeTableWord nbits w = some i →
    ∃ u t, u.ph = .initial ∧ queuedBytes u = encode i ∧ exec i u = .next t ∧
      t.ph = .awaitCommandStop ∧ t.cmd.op = i.opcode.byte ∧
      step (s.withFetchWord nbits w) = .next (finishTick false u.sidx (openCell u.sidx t))

/-! ## Edge tracker and classifier -/

/-- Rule R130. What edge a sample shows: falling and rising against the previous sample, none at the
first sample of a session. -/
def Obligations.EdgeDetection : Prop :=
  ∀ (s : State) (d : Bool),
    (s.edge d = .falling ↔ s.prevValid = true ∧ s.prev = true ∧ d = false) ∧
    (s.edge d = .rising ↔ s.prevValid = true ∧ s.prev = false ∧ d = true) ∧
    (s.prevValid = false → s.edge d = .none)

/-- Rule R131. In SEEK_FALL a falling edge runs the desync check, opens a cell and moves on to
SEEK_RISE; anything else changes nothing. -/
def Obligations.FallingEdgeOpensCell : Prop :=
  ∀ s : State, s.cph = .seekFall →
    classify .falling s = .next { desyncCheck s.sidx s with fall := s.sidx, cph := .seekRise } ∧
    ∀ e, e ≠ .falling → classify e s = .next s

/-- Rule R132. In SEEK_RISE a rising edge measures the low phase and moves on to SEEK_EVENT. -/
def Obligations.RisingEdgeMeasuresLow : Prop :=
  ∀ s : State, s.cph = .seekRise →
    classify .rising s = .next
      { s with rise := s.sidx, low := s.sidx - s.fall, riseValid := true, cph := .seekEvent }

/-- Rule R133. A falling edge in SEEK_EVENT closes the cell: the bit is 0 exactly when the high phase
was shorter than the low phase; it is emitted with the old `FALL` as its start and handed on, and after
that the desync check runs and the next cell opens at the same sample. The tick ends with the timeout
test and the advance. -/
def Obligations.FallingEdgeClassifiesCell : Prop :=
  ∀ (s : State) (acts : List HostAct), s.Decoding → s.cph = .seekEvent → s.prevValid = true →
    s.prev = true → s.SampleNext false acts →
    let b := !decide (s.sidx - s.rise < s.low)
    (step s = andThen (emitBit b s.fall s.sidx { s with host := acts }) fun u =>
      .next (finishTick false s.sidx
        { desyncCheck s.sidx u with fall := s.sidx, cph := .seekRise })) ∧
    ∃ t more, step s = .next t ∧ t.out = s.out ++ ⟨s.fall, s.sidx, .bit b⟩ :: more ∧
      t.fall = s.sidx ∧ t.cph = .seekRise ∧ t.rise = s.rise ∧ t.low = s.low ∧
      (s.riseValid = true → s.gap < s.sidx - s.rise → t.bitq = [])

/-- Rule R134. With no falling edge, a high phase that has reached four times the low phase closes the
cell with a 1, handed on, and goes to SEEK_FALL, the edge tracker's times unchanged; before that the
cell stays open and nothing is emitted. The tick ends with the timeout test and the advance. -/
def Obligations.IdleClosesCell : Prop :=
  ∀ (s : State) (d : Bool) (acts : List HostAct), s.Decoding → s.cph = .seekEvent →
    s.edge d ≠ .falling → s.SampleNext d acts →
    (4 * s.low ≤ s.sidx - s.rise →
      (step s = andThen (emitBit true s.fall s.sidx { s with host := acts }) fun u =>
        .next (finishTick d s.sidx { u with cph := .seekFall })) ∧
      ∃ t more, step s = .next t ∧ t.out = s.out ++ ⟨s.fall, s.sidx, .bit true⟩ :: more ∧
        t.cph = .seekFall ∧ t.fall = s.fall ∧ t.rise = s.rise ∧ t.low = s.low) ∧
    (s.sidx - s.rise < 4 * s.low →
      ∃ t, step s = .next t ∧ t.out = s.out ∧ t.cph = .seekEvent ∧ t.fall = s.fall ∧
        t.rise = s.rise ∧ t.low = s.low)

/-- When the falling edge comes exactly at the idle point the edge wins: the bit is 1, and the next cell
opens at that sample. Derived from rule R135, which is the specification's decision D8. -/
def Obligations.FallingEdgeBeatsIdle : Prop :=
  ∀ (s : State) (acts : List HostAct), s.Decoding → s.cph = .seekEvent → s.prevValid = true →
    s.prev = true → s.SampleNext false acts → s.sidx = s.rise + 4 * s.low →
    ∃ t more, step s = .next t ∧ t.out = s.out ++ ⟨s.fall, s.sidx, .bit true⟩ :: more ∧
      t.cph = .seekRise ∧ t.fall = s.sidx

/-- Rule R136. The desync check empties `BITQ` exactly when there has been a rising edge and the gap
since it strictly exceeds `GAP`; it writes nothing else and emits nothing. -/
def Obligations.DesyncCheckDiscardsBits : Prop :=
  ∀ (t : Nat) (s : State),
    desyncCheck t s =
      { s with bitq := if s.riseValid = true ∧ s.gap < t - s.rise then [] else s.bitq }

/-- Rule R141. The classifier's transition table as one statement about a tick of a decoding session:
the next phase, the registers written, the desync discard, and the bit records emitted (never more
than one). -/
def Obligations.ClassifierTransitionTable : Prop :=
  ∀ (s t : State) (d : Bool) (acts : List HostAct), s.Decoding → s.SampleNext d acts →
    step s = .next t →
    let e := s.edge d
    let closes := s.cph = .seekEvent ∧ e = .falling
    let idles := s.cph = .seekEvent ∧ e ≠ .falling ∧ 4 * s.low ≤ s.sidx - s.rise
    let opens := s.cph = .seekFall ∧ e = .falling
    let rises := s.cph = .seekRise ∧ e = .rising
    t.cph = (if opens ∨ closes then .seekRise else if rises then .seekEvent
      else if idles then .seekFall else s.cph) ∧
    t.fall = (if opens ∨ closes then s.sidx else s.fall) ∧
    t.rise = (if rises then s.sidx else s.rise) ∧
    t.low = (if rises then s.sidx - s.fall else s.low) ∧
    t.riseValid = (if rises then true else s.riseValid) ∧
    (opens ∨ closes → s.riseValid = true → s.gap < s.sidx - s.rise → t.bitq = []) ∧
    ∃ rs, t.out = s.out ++ rs ∧
      rs.filter (fun r => r.payload.category = .bit) =
        (if closes then [⟨s.fall, s.sidx, .bit (decide (s.low ≤ s.sidx - s.rise))⟩]
          else if idles then [⟨s.fall, s.sidx, .bit true⟩] else [])

/-- A whole well-formed cell, sample by sample: from SEEK_FALL on a high line, its low phase, its high
phase and the next falling edge give exactly one bit, 0 when the high phase is shorter than the low
phase and 1 otherwise, with the cell's span; no record after it is a bit's. Derived from rules R91, R131
to R133 and example E1. -/
def Obligations.CellIsClassifiedByItsOwnRatio : Prop :=
  ∀ (c : Cell) (acts : List HostAct) (s : State), s.Decoding → s.cph = .seekFall →
    s.prevValid = true → s.prev = true → c.wf = true →
    s.host = (cellSamples c ++ [false]).map HostAct.sample ++ acts →
    ∃ t more, Sys2Proof.core.run (cellLength c + 1) s = .next t ∧
      t.out = s.out ++
        ⟨s.sidx, s.sidx + cellLength c, .bit (!decide (c.high < c.low))⟩ :: more ∧
      (∀ r ∈ more, r.payload.category ≠ .bit) ∧
      t.cph = .seekRise ∧ t.fall = s.sidx + cellLength c ∧ t.rise = s.sidx + c.low ∧
      t.low = c.low ∧ t.host = acts

/-- A low phase of `l` samples after which the line stays high is a 1, closed `4 * l` samples after its
rising edge, whatever `l` is. Derived from rules R91, R134 and R291. -/
def Obligations.CellClosedByIdleIsOne : Prop :=
  ∀ (l : Nat) (acts : List HostAct) (s : State), s.Decoding → s.cph = .seekFall →
    s.prevValid = true → s.prev = true → 1 ≤ l →
    s.host =
      (List.replicate l false ++ List.replicate (4 * l + 1) true).map HostAct.sample ++ acts →
    ∃ t more, Sys2Proof.core.run (5 * l + 1) s = .next t ∧
      t.out = s.out ++ ⟨s.sidx, s.sidx + 5 * l, .bit true⟩ :: more ∧
      t.cph = .seekFall ∧ t.fall = s.sidx ∧ t.rise = s.sidx + l ∧ t.low = l ∧ t.host = acts

/-- Stretching a cell by a positive whole factor changes neither its bit nor whether idle closes it.
Derived from rule R142. -/
def Obligations.ClassifierIsSelfClocking : Prop :=
  ∀ k high low : Nat, 1 ≤ k →
    bitValue (k * high) (k * low) = bitValue high low ∧
    idleReached (k * high) (k * low) = idleReached high low

/-! ## Byte assembler -/

/-- Rule R160. In a stop phase a bit goes to the stop slot and not into `BITQ`; otherwise it is queued,
and the eighth bit queued triggers the assembly in the same tick. -/
def Obligations.AcceptBitQueuesOrStops : Prop :=
  ∀ (s : State) (b : Bool) (st fi : Nat),
    ((s.ph = .awaitCommandStop ∨ s.ph = .awaitResponseStop) →
      acceptBit b st fi s = .next (stopSlot b st fi s)) ∧
    ((s.ph = .initial ∨ s.ph = .awaitResponseBytes) →
      (s.bitq.length + 1 < 8 →
        acceptBit b st fi s = .next { s with bitq := s.bitq ++ [⟨b, st, fi⟩] }) ∧
      (8 ≤ s.bitq.length + 1 →
        acceptBit b st fi s = assemble { s with bitq := s.bitq ++ [⟨b, st, fi⟩] }))

/-- Rule R161. The eight oldest bits make one byte, the i-th received becoming bit 7 - i, with the span
from the first bit's start to the eighth bit's end; the bits behind them stay queued. -/
def Obligations.AssemblyIsMostSignificantFirst : Prop :=
  ∀ (s : State) (b0 b1 b2 b3 b4 b5 b6 b7 : BitEntry) (rest : List BitEntry),
    s.bitq = b0 :: b1 :: b2 :: b3 :: b4 :: b5 :: b6 :: b7 :: rest →
    ∃ v : Byte, assemble s = emitByte v b0.start b7.finish { s with bitq := rest } ∧
      v.toNat = 128 * b0.val.toNat + 64 * b1.val.toNat + 32 * b2.val.toNat + 16 * b3.val.toNat
        + 8 * b4.val.toNat + 4 * b5.val.toNat + 2 * b6.val.toNat + b7.val.toNat ∧
      [v.getLsbD 7, v.getLsbD 6, v.getLsbD 5, v.getLsbD 4, v.getLsbD 3, v.getLsbD 2, v.getLsbD 1,
        v.getLsbD 0] = [b0.val, b1.val, b2.val, b3.val, b4.val, b5.val, b6.val, b7.val]

/-- Rule R165. Every assembled byte has its record and is queued before the frame machine sees it. -/
def Obligations.EveryByteIsAnnotatedAndQueued : Prop :=
  ∀ (v : Byte) (st fi : Nat) (s : State),
    emitByte v st fi s = frameStep
      { s with out := s.out ++ [⟨st, fi, .byte v⟩], byteq := s.byteq ++ [⟨v, st, fi⟩] }

/-! ## Commands -/

/-- PROBE and RESET: with a byte queued, in every state, each completes as stated; RESET resets nothing
of GCDEC. The equations say what stays unchanged as well. Derived from rules R174, R175 and R176, which
speak of the command's own opcode byte at the head; that another head byte gives the same opcode value
is the model's choice (log entry 19). -/
def Obligations.ProbeAndResetComplete : Prop :=
  ∀ (s : State) (e : ByteEntry) (rest : List ByteEntry), s.byteq = e :: rest →
    exec .probe s = .next
      { s with
        cmd := ⟨0x00#8, e.start⟩, expLen := 3, byteq := [], ph := .awaitCommandStop
        out := s.out ++ [⟨e.start, e.finish, .cmd 0x00#8⟩] } ∧
    exec .reset s = .next
      { s with
        cmd := ⟨0xFF#8, e.start⟩, expLen := 3, byteq := [], ph := .awaitCommandStop
        out := s.out ++ [⟨e.start, e.finish, .cmd 0xFF#8⟩] }

/-- ORIGIN, CALIB and STATUSL complete with a response of ten bytes. Derived from rules R174, R177, R178
and R179, which speak of the command's own opcode byte at the head; that another head byte gives the
same opcode value is the model's choice (log entry 19). -/
def Obligations.TenByteCommandsComplete : Prop :=
  ∀ (s : State) (e : ByteEntry) (rest : List ByteEntry), s.byteq = e :: rest →
    exec .origin s = .next
      { s with
        cmd := ⟨0x41#8, e.start⟩, expLen := 10, byteq := [], ph := .awaitCommandStop
        out := s.out ++ [⟨e.start, e.finish, .cmd 0x41#8⟩] } ∧
    exec .calib s = .next
      { s with
        cmd := ⟨0x42#8, e.start⟩, expLen := 10, byteq := [], ph := .awaitCommandStop
        out := s.out ++ [⟨e.start, e.finish, .cmd 0x42#8⟩] } ∧
    exec .statusl s = .next
      { s with
        cmd := ⟨0x43#8, e.start⟩, expLen := 10, byteq := [], ph := .awaitCommandStop
        out := s.out ++ [⟨e.start, e.finish, .cmd 0x43#8⟩] }

/-- STATUS reports its two parameter bytes in one record after the CMD record, and keeps them nowhere.
Derived from rule R180, which reports the values of `BYTEQ[1]` and `BYTEQ[2]`: those of the instruction
wherever the queue decodes to it. That on a queue with other bytes the instruction's values are
reported is the model's choice (log entry 19). -/
def Obligations.StatusCompletes : Prop :=
  ∀ (s : State) (e p1 p2 : ByteEntry) (rest : List ByteEntry) (mode rumble : Byte),
    s.byteq = e :: p1 :: p2 :: rest →
    exec (.status mode rumble) s = .next
      { s with
        cmd := ⟨0x40#8, e.start⟩, expLen := 8, byteq := [], ph := .awaitCommandStop
        out := s.out ++ [⟨e.start, e.finish, .cmd 0x40#8⟩,
          ⟨p1.start, p2.finish, .cmdParam mode rumble⟩] }

/-- KBD counts its two parameter bytes and reports the opcode only. Derived from rule R181, which speaks
of a queue that holds the command's own bytes; that another head byte gives the same opcode value is
the model's choice (log entry 19). -/
def Obligations.KeyboardCompletes : Prop :=
  ∀ (s : State) (e p1 p2 : ByteEntry) (rest : List ByteEntry) (param1 param2 : Byte),
    s.byteq = e :: p1 :: p2 :: rest →
    exec (.kbd param1 param2) s = .next
      { s with
        cmd := ⟨0x54#8, e.start⟩, expLen := 8, byteq := [], ph := .awaitCommandStop
        out := s.out ++ [⟨e.start, e.finish, .cmd 0x54#8⟩] }

/-- The frame of all seven commands, in any state and with any number of bytes queued: the edge
tracker's registers, `BITQ`, `TREF`, the poll mode, the session's registers and the host's list are
unchanged, and the output stream only gains `command` records. Derived from rules R174 to R181. -/
def Obligations.CommandFrame : Prop :=
  ∀ (i : Instr) (s : State), ∃ t rs, exec i s = .next t ∧
    t = { s with cmd := t.cmd, expLen := t.expLen, byteq := t.byteq, ph := t.ph, out := t.out } ∧
    t.out = s.out ++ rs ∧ ∀ r ∈ rs, r.payload.category = .command

/-- A command whose bytes have not all been queued has no effect at all, and the two three-byte opcodes
wait so in INITIAL, whatever their parameter byte. Derived from rules R171 and R173. -/
def Obligations.ShortCommandWaits : Prop :=
  (∀ (i : Instr) (s : State), s.byteq.length < i.opcode.cmdLen → exec i s = .next s) ∧
  (∀ (s : State) (e : ByteEntry) (rest : List ByteEntry), s.byteq = e :: rest →
    rest.length < 2 → e.val = 0x40#8 ∨ e.val = 0x54#8 → initialStep s = .next s)

/-- Rule R172. An unrecognised byte at the head of `BYTEQ` in INITIAL is removed, alone and silently,
and no other register changes. -/
def Obligations.UnknownOpcodeIsDiscarded : Prop :=
  ∀ (s : State) (e : ByteEntry) (rest : List ByteEntry), s.byteq = e :: rest →
    e.val ∉ [0x00#8, 0xFF#8, 0x41#8, 0x42#8, 0x43#8, 0x40#8, 0x54#8] →
    initialStep s = .next { s with byteq := rest }

/-- A well-timed command on the wire is recognised. From a clean INITIAL state with the line high, let
well-formed cells carry the bits of a command, each with a high phase no longer than `GAP`; then the
falling edge after the last cell completes that command: the phase, the latched opcode, its first
sample and the response length are as the table says, and the CMD record spans the opcode's eight
cells. Derived from rules R91, R100, R131 to R133, R161, R171 and R174. -/
def Obligations.WellTimedCommandIsRecognised : Prop :=
  ∀ (i : Instr) (cells : List Cell) (acts : List HostAct) (s : State), s.Decoding →
    s.ph = .initial → s.bitq = [] → s.byteq = [] → s.cph = .seekFall → s.prevValid = true →
    s.prev = true → (∀ c ∈ cells, c.wf = true ∧ c.high ≤ s.gap) →
    cells.map cellBit = encodeBits i →
    s.host = (cellsSamples cells ++ [false]).map HostAct.sample ++ acts →
    ∃ t, Sys2Proof.core.run (cellsLength cells + 1) s = .next t ∧
      t.ph = .awaitCommandStop ∧ t.cmd = ⟨i.opcode.byte, s.sidx⟩ ∧ t.expLen = i.opcode.respLen ∧
      ⟨s.sidx, s.sidx + cellsLength (cells.take 8), .cmd i.opcode.byte⟩ ∈ t.out ∧ t.host = acts

/-! ## Stop slots, response, timeout -/

/-- Rule R186. A 1 in the command stop slot: after the bit's own record the stop record, both queues
cleared, the timeout reference loaded with the command's first sample (conflict C2), and the response
awaited. -/
def Obligations.CommandStopAccepted : Prop :=
  ∀ (s : State) (st fi : Nat), s.ph = .awaitCommandStop →
    emitBit true st fi s = .next
      { s with
        out := s.out ++ [⟨st, fi, .bit true⟩, ⟨st, fi, .stop⟩], bitq := [], byteq := []
        tref := s.cmd.first, ph := .awaitResponseBytes }

/-- Rule R187. A 1 in the response stop slot: after the bit's own record the stop record, both queues
cleared, back to INITIAL. -/
def Obligations.ResponseStopAccepted : Prop :=
  ∀ (s : State) (st fi : Nat), s.ph = .awaitResponseStop →
    emitBit true st fi s = .next
      { s with
        out := s.out ++ [⟨st, fi, .bit true⟩, ⟨st, fi, .stop⟩], bitq := [], byteq := []
        ph := .initial }

/-- Rule R188. A 0 in a stop slot has its bit record and no other effect. -/
def Obligations.StopSlotZeroIsIgnored : Prop :=
  ∀ (s : State) (st fi : Nat), s.ph = .awaitCommandStop ∨ s.ph = .awaitResponseStop →
    emitBit false st fi s = .next { s with out := s.out ++ [⟨st, fi, .bit false⟩] }

/-- Rule R190. A response byte is only counted until the expected length is reached; then the response
is decoded and its stop bit awaited, the bytes staying queued. -/
def Obligations.ResponseIsDecodedAtItsLength : Prop :=
  ∀ s : State, s.ph = .awaitResponseBytes →
    (s.byteq.length < s.expLen → frameStep s = .next s) ∧
    (s.expLen ≤ s.byteq.length →
      frameStep s = .next { decodeResponse s with ph := .awaitResponseStop } ∧
      (decodeResponse s).byteq = s.byteq)

/-- Rules R192 and R193 (exact arithmetic and the test at every tick are the specification's decisions
D10 and D11). The timeout test: in AWAIT_RESPONSE_BYTES, once `1000 * (t - TREF)` has reached `RATE`,
equivalently once `t - TREF` has reached the rate's thousandth rounded up, which is at least 2000
samples in a session that decodes, both queues are cleared and the phase is INITIAL, with no record;
otherwise nothing happens. -/
def Obligations.TimeoutAbortsResponse : Prop :=
  ∀ (t : Nat) (s : State),
    timeoutCheck t s =
      (if s.ph = .awaitResponseBytes ∧ s.rate ≤ 1000 * (t - s.tref) then
        { s with bitq := [], byteq := [], ph := .initial } else s) ∧
    (s.rate ≤ 1000 * (t - s.tref) ↔ (s.rate + 999) / 1000 ≤ t - s.tref) ∧
    (2000000 ≤ s.rate → 2000 ≤ (s.rate + 999) / 1000)

/-- After every tick of a decoding session, whatever happened in it, a response still awaited is within
its millisecond. Derived from rules R192 and R260. -/
def Obligations.NoResponseOutlivesItsTimeout : Prop :=
  ∀ (s : State) (d : Bool) (acts : List HostAct), s.Decoding → s.SampleNext d acts →
    ∃ t, step s = .next t ∧
      (t.ph = .awaitResponseBytes → 1000 * (s.sidx - t.tref) < s.rate)

/-- Bit before timeout. The byte that completes a response wins over a timeout at the same tick; a command
stop accepted when the time is already up is followed by the timeout in the same tick. Derived from
rules R186 and R255 item 3. -/
def Obligations.BitIsProcessedBeforeTimeout : Prop :=
  ∀ (s : State) (acts : List HostAct), s.Decoding → s.cph = .seekEvent → s.prevValid = true →
    s.prev = true → s.SampleNext false acts →
    (s.ph = .awaitResponseBytes → s.bitq.length = 7 → s.expLen ≤ s.byteq.length + 1 →
      ∃ t, step s = .next t ∧ t.ph = .awaitResponseStop ∧ t.byteq.length = s.byteq.length + 1) ∧
    (s.ph = .awaitCommandStop → s.low ≤ s.sidx - s.rise →
      s.rate ≤ 1000 * (s.sidx - s.cmd.first) →
      ∃ t, step s = .next t ∧ t.ph = .initial ∧ t.tref = s.cmd.first ∧
        t.bitq = [] ∧ t.byteq = [])

/-- The only ways a sample can move the protocol phase, whatever the state: through the frame in order,
out of the response by timeout, and past the command stop by a timeout in the same tick. Derived from
rules R195 and R196 (a). -/
def Obligations.PhaseTransitions : Prop :=
  ∀ (s t : State) (d : Bool) (acts : List HostAct), s.SampleNext d acts → step s = .next t →
    (s.ph = .initial → t.ph = .initial ∨ t.ph = .awaitCommandStop) ∧
    (s.ph = .awaitCommandStop →
      t.ph = .awaitCommandStop ∨ t.ph = .awaitResponseBytes ∨ t.ph = .initial) ∧
    (s.ph = .awaitResponseBytes →
      t.ph = .awaitResponseBytes ∨ t.ph = .awaitResponseStop ∨ t.ph = .initial) ∧
    (s.ph = .awaitResponseStop → t.ph = .awaitResponseStop ∨ t.ph = .initial)

/-- The opcode latch: a sample changes `CMD` or `EXPLEN` only by completing a command from INITIAL, and
`TREF` only by the command stop, to the command's first sample. Derived from rules R36 to R38 and
R72. -/
def Obligations.OpcodeLatchHoldsThroughFrame : Prop :=
  ∀ (s t : State) (d : Bool) (acts : List HostAct), s.SampleNext d acts → step s = .next t →
    (t.cmd ≠ s.cmd ∨ t.expLen ≠ s.expLen → s.ph = .initial ∧ t.ph = .awaitCommandStop) ∧
    (t.tref ≠ s.tref → s.ph = .awaitCommandStop ∧ t.tref = s.cmd.first)

/-! ## Response decoders -/

/-- Rules R211, R212, R219 and R220. An identify response, to PROBE or RESET: the ID0 record of byte0,
and for controller type GC the ID2 record of byte2 and the poll mode; byte1 is not read, and nothing
else changes. -/
def Obligations.IdentifyResponseDecoded : Prop :=
  ∀ (s : State) (c0 c1 c2 : ByteEntry) (rest : List ByteEntry),
    s.cmd.op = 0x00#8 ∨ s.cmd.op = 0xFF#8 → s.byteq = c0 :: c1 :: c2 :: rest →
    let v := c0.val
    let w := c2.val
    let id0 : Record := ⟨c0.start, c0.finish, .id0
      { wireless := v.getLsbD 7, bidir := v.getLsbD 6, rumbleCapable := !v.getLsbD 5
        ctype := BitVec.ofNat 2 (v.toNat / 8), standard := v.getLsbD 0 }⟩
    let id2 : Record := ⟨c2.start, c2.finish, .id2
      { hadError := w.getLsbD 7, errorLatched := w.getLsbD 6, originNotSent := w.getLsbD 5
        rumbleMode := BitVec.ofNat 2 (w.toNat / 8), pollMode := BitVec.ofNat 3 w.toNat }⟩
    decodeResponse s =
      if v.toNat / 8 % 4 = 1 then
        { s with
          out := s.out ++ [id0, id2], pollMode := BitVec.ofNat 3 w.toNat, pollModeValid := true }
      else { s with out := s.out ++ [id0] }

/-- Rules R213, R217, R221, R222 and R223. The response to STATUS: five records in ascending byte order,
and nothing else changes. -/
def Obligations.StatusResponseDecoded : Prop :=
  ∀ (s : State) (c0 c1 c2 c3 c4 c5 c6 c7 : ByteEntry) (rest : List ByteEntry),
    s.cmd.op = 0x40#8 → s.expLen = 8 →
    s.byteq = c0 :: c1 :: c2 :: c3 :: c4 :: c5 :: c6 :: c7 :: rest →
    decodeResponse s =
      { s with out := s.out ++ [
          ⟨c0.start, c0.finish, .btn0 ⟨c0.val.getLsbD 0, c0.val.getLsbD 1, c0.val.getLsbD 2,
            c0.val.getLsbD 3, c0.val.getLsbD 4⟩⟩,
          ⟨c1.start, c1.finish, .btn1 ⟨c1.val.getLsbD 0, c1.val.getLsbD 1, c1.val.getLsbD 2,
            c1.val.getLsbD 3, c1.val.getLsbD 4, c1.val.getLsbD 5, c1.val.getLsbD 6⟩⟩,
          ⟨c2.start, c3.finish, .stick ((c2.val.toNat : Int) - 128) ((c3.val.toNat : Int) - 128)⟩,
          ⟨c4.start, c5.finish, .cstick ((c4.val.toNat : Int) - 128) ((c5.val.toNat : Int) - 128)⟩,
          ⟨c6.start, c7.finish, .trig c6.val c7.val⟩] }

/-- Rules R214, R215, R216 and R224. The responses to ORIGIN, CALIB and STATUSL: the five records of the
status layout and then the origin bytes, raw. -/
def Obligations.OriginResponsesDecoded : Prop :=
  ∀ (s : State) (c0 c1 c2 c3 c4 c5 c6 c7 c8 c9 : ByteEntry) (rest : List ByteEntry),
    s.cmd.op = 0x41#8 ∨ s.cmd.op = 0x42#8 ∨ s.cmd.op = 0x43#8 → s.expLen = 10 →
    s.byteq = c0 :: c1 :: c2 :: c3 :: c4 :: c5 :: c6 :: c7 :: c8 :: c9 :: rest →
    decodeResponse s =
      { s with out := s.out ++ [
          ⟨c0.start, c0.finish, .btn0 ⟨c0.val.getLsbD 0, c0.val.getLsbD 1, c0.val.getLsbD 2,
            c0.val.getLsbD 3, c0.val.getLsbD 4⟩⟩,
          ⟨c1.start, c1.finish, .btn1 ⟨c1.val.getLsbD 0, c1.val.getLsbD 1, c1.val.getLsbD 2,
            c1.val.getLsbD 3, c1.val.getLsbD 4, c1.val.getLsbD 5, c1.val.getLsbD 6⟩⟩,
          ⟨c2.start, c3.finish, .stick ((c2.val.toNat : Int) - 128) ((c3.val.toNat : Int) - 128)⟩,
          ⟨c4.start, c5.finish, .cstick ((c4.val.toNat : Int) - 128) ((c5.val.toNat : Int) - 128)⟩,
          ⟨c6.start, c7.finish, .trig c6.val c7.val⟩,
          ⟨c8.start, c9.finish, .origin c8.val c9.val⟩] }

/-- Rule R218. The response to KBD is counted and not decoded: no record, no state change. -/
def Obligations.KeyboardResponseNotDecoded : Prop :=
  ∀ s : State, s.cmd.op = 0x54#8 → decodeResponse s = s

/-- Rule R226. Whatever the opcode latched, the expected length and the bytes queued, a decoder only
appends `response_field` records and may write the poll mode; it always answers. -/
def Obligations.DecodersOnlyAnnotate : Prop :=
  ∀ s : State, ∃ rs,
    decodeResponse s =
      { s with
        out := s.out ++ rs, pollMode := (decodeResponse s).pollMode
        pollModeValid := (decodeResponse s).pollModeValid } ∧
    ∀ r ∈ rs, r.payload.category = .responseField

/-- A stick axis is between -128 and 127, and its payload byte is the raw byte with bit 7 flipped.
Derived from rule R217. -/
def Obligations.StickAxisIsOffsetBinary : Prop :=
  ∀ raw : Byte, -128 ≤ stickAxis raw ∧ stickAxis raw ≤ 127 ∧ axisByte (stickAxis raw) = raw ^^^ 0x80#8

/-- Whatever sample arrives in whatever state, the poll mode changes only when it completes the response
to PROBE or RESET, and is valid afterwards. Derived from rules R39 and R220. -/
def Obligations.PollModeWrittenOnlyByIdentify : Prop :=
  ∀ (s t : State) (d : Bool) (acts : List HostAct), s.SampleNext d acts → step s = .next t →
    t.pollMode ≠ s.pollMode ∨ t.pollModeValid ≠ s.pollModeValid →
    s.ph = .awaitResponseBytes ∧ t.ph = .awaitResponseStop ∧
      (s.cmd.op = 0x00#8 ∨ s.cmd.op = 0xFF#8) ∧ t.pollModeValid = true

/-! ## Output stream -/

/-- A sample only appends to the output stream, at most eight records, in the order of the pipeline: the
bit, then a stop, or the byte and then what the byte caused. Derived from rules R55, R65 and R74. -/
def Obligations.RecordsOfATickInOrder : Prop :=
  ∀ (s t : State) (d : Bool) (acts : List HostAct), s.SampleNext d acts → step s = .next t →
    ∃ rs, t.out = s.out ++ rs ∧ rs.length ≤ 8 ∧
      (rs.map (fun r => r.payload.category) = [] ∨
        rs.map (fun r => r.payload.category) = [.bit] ∨
        rs.map (fun r => r.payload.category) = [.bit, .stopBit] ∨
        (∃ n, n ≤ 2 ∧ rs.map (fun r => r.payload.category) =
          .bit :: .byte :: List.replicate n .command) ∨
        (∃ n, n ≤ 6 ∧ rs.map (fun r => r.payload.category) =
          .bit :: .byte :: List.replicate n .responseField))

/-- From a sound state, no record of a tick ends after the tick's sample, and `bit`, `byte` and
`stop_bit` records end exactly there. Derived from rule R301. -/
def Obligations.RecordsEndAtTheirTick : Prop :=
  ∀ (s t : State) (d : Bool) (acts : List HostAct), s.Sound → s.SampleNext d acts →
    step s = .next t →
    ∃ rs, t.out = s.out ++ rs ∧ ∀ r ∈ rs, r.finish ≤ s.sidx ∧
      (r.payload.category = .bit ∨ r.payload.category = .byte ∨ r.payload.category = .stopBit →
        r.finish = s.sidx)

/-! ## Invariants -/

/-- Every session start leaves a sound state, and so does reset. Derived from rule R48. -/
def Obligations.SessionStartIsSound : Prop :=
  State.reset.Sound ∧ ∀ (rate gap : Nat) (s : State), (sessionStart rate gap s).Sound

/-- The queue lengths by phase, the waiting heads and the latched opcode of rule R48 (items 1, 2, 3, 6
and 7) hold again after every step from every state in which they hold. Derived from rule R48. -/
def Obligations.QueuesStaySound : Prop :=
  ∀ s t : State, s.QueuesSound → step s = .next t → t.QueuesSound

/-- The whole invariant of rule R48, with the cell in progress, the order of times and spans and the
meaning of FATAL, holds again after every step from every state in which it holds. Derived from rule
R48. -/
def Obligations.EveryStepKeepsSoundness : Prop :=
  ∀ s t : State, s.Sound → step s = .next t → t.Sound
end

