-- ==== Sys2Proof/Laws/Decode.lean ====
section
/-! SUPPORT. The opcode table: its rows do not overlap, and what the decoder reads from each opcode. -/

namespace Sys2Proof

/-- No byte matches two rows of the table. -/
theorem opcode_rows_disjoint :
    Opcode.all.Pairwise fun a b => ∀ v : Byte, a.row.matches v = true → b.row.matches v = false := by
  decide

theorem and_whole_byte (b : Byte) : b &&& 0xFF#8 = b := BitVec.and_allOnes

@[simp] theorem ofByte_byte (o : Opcode) : Opcode.ofByte o.byte = some o := by
  cases o <;> decide

/-- A byte is recognised as `o` exactly when it is `o`'s byte. -/
theorem ofByte_eq_some {b : Byte} {o : Opcode} : Opcode.ofByte b = some o ↔ b = o.byte := by
  constructor
  · intro h
    have hm := List.find?_some h
    cases o <;>
      simpa only [OpcodeRow.matches, Opcode.row, Opcode.byte, and_whole_byte, beq_iff_eq] using hm
  · rintro rfl
    exact ofByte_byte o

theorem ofByte_eq_none {b : Byte} : Opcode.ofByte b = none ↔ ∀ o : Opcode, b ≠ o.byte := by
  constructor
  · rintro h o rfl
    simp at h
  · intro h
    cases hb : Opcode.ofByte b with
    | none => rfl
    | some o => exact absurd (ofByte_eq_some.1 hb) (h o)

/-- Encoding a command gives as many bytes as its opcode's command length. -/
theorem length_encode (i : Instr) : (encode i).length = i.opcode.cmdLen := by
  cases i <;> rfl

/-- A command needs its whole command length of queued bytes to be decoded. -/
theorem decode_command_length {bs : List Byte} {i : Instr} (h : decode bs = .command i) :
    i.opcode.cmdLen ≤ bs.length := by
  match bs with
  | [] => simp [decode] at h
  | b :: ps =>
    simp only [decode] at h
    split at h
    · exact Decoded.noConfusion h
    iterate 5
      cases h
      simp [Instr.opcode, Opcode.cmdLen, Opcode.row]
    all_goals
      split at h
      · cases h
        simp [Instr.opcode, Opcode.cmdLen, Opcode.row]
      · exact Decoded.noConfusion h

/-- The head of the queue is the opcode byte of what it decodes to. -/
theorem decode_command_head {b : Byte} {ps : List Byte} {i : Instr}
    (h : decode (b :: ps) = .command i) : Opcode.ofByte b = some i.opcode := by
  simp only [decode] at h
  split at h
  · exact Decoded.noConfusion h
  iterate 5
    cases h
    assumption
  all_goals
    split at h
    · cases h
      assumption
    · exact Decoded.noConfusion h

/-- Only the two three-byte opcodes wait, and only with fewer than three bytes (rule R173). -/
theorem decode_awaiting {b : Byte} {ps : List Byte} {o : Opcode} (h : decode (b :: ps) = .awaiting o) :
    b = o.byte ∧ (o = .status ∨ o = .kbd) ∧ ps.length < 2 := by
  simp only [decode] at h
  split at h
  · exact Decoded.noConfusion h
  iterate 5 exact Decoded.noConfusion h
  all_goals
    rename_i hb
    split at h
    · exact Decoded.noConfusion h
    · rename_i hne
      cases h
      refine ⟨ofByte_eq_some.1 hb, by simp, ?_⟩
      match ps with
      | [] => simp
      | [_] => simp
      | p1 :: p2 :: r => exact absurd rfl (hne p1 p2 r)

theorem decode_unknown {b c : Byte} {ps : List Byte} (h : decode (b :: ps) = .unknownOpcode c) :
    Opcode.ofByte b = none ∧ c = b := by
  simp only [decode] at h
  split at h
  · cases h
    exact ⟨‹_›, rfl⟩
  iterate 5 exact Decoded.noConfusion h
  all_goals
    split at h <;> exact Decoded.noConfusion h

theorem decode_ne_empty {b : Byte} {ps : List Byte} : decode (b :: ps) ≠ .empty := by
  intro h
  simp only [decode] at h
  split at h
  · exact Decoded.noConfusion h
  iterate 5 exact Decoded.noConfusion h
  all_goals
    split at h <;> exact Decoded.noConfusion h

/-- Response lengths are 3, 8 or 10 (rule R94). -/
theorem respLen_cases (o : Opcode) : o.respLen = 3 ∨ o.respLen = 8 ∨ o.respLen = 10 := by
  cases o <;> simp [Opcode.respLen, Opcode.row]

end Sys2Proof
end

