-- ==== Sys2Proof/Laws/State.lean ====
section
/-! SUPPORT. One lemma per field of the state for each named update of it, so that no later proof
unfolds a record update. -/

namespace Sys2Proof.Machine

/-! ## `emit` -/

@[simp] theorem emit_sidx (a b : Nat) (p : Payload) (s : State) :
    (emit a b p s).sidx = s.sidx := rfl
@[simp] theorem emit_cph (a b : Nat) (p : Payload) (s : State) :
    (emit a b p s).cph = s.cph := rfl
@[simp] theorem emit_prev (a b : Nat) (p : Payload) (s : State) :
    (emit a b p s).prev = s.prev := rfl
@[simp] theorem emit_prevValid (a b : Nat) (p : Payload) (s : State) :
    (emit a b p s).prevValid = s.prevValid := rfl
@[simp] theorem emit_fall (a b : Nat) (p : Payload) (s : State) :
    (emit a b p s).fall = s.fall := rfl
@[simp] theorem emit_rise (a b : Nat) (p : Payload) (s : State) :
    (emit a b p s).rise = s.rise := rfl
@[simp] theorem emit_riseValid (a b : Nat) (p : Payload) (s : State) :
    (emit a b p s).riseValid = s.riseValid := rfl
@[simp] theorem emit_low (a b : Nat) (p : Payload) (s : State) :
    (emit a b p s).low = s.low := rfl
@[simp] theorem emit_ph (a b : Nat) (p : Payload) (s : State) :
    (emit a b p s).ph = s.ph := rfl
@[simp] theorem emit_bitq (a b : Nat) (p : Payload) (s : State) :
    (emit a b p s).bitq = s.bitq := rfl
@[simp] theorem emit_byteq (a b : Nat) (p : Payload) (s : State) :
    (emit a b p s).byteq = s.byteq := rfl
@[simp] theorem emit_cmd (a b : Nat) (p : Payload) (s : State) :
    (emit a b p s).cmd = s.cmd := rfl
@[simp] theorem emit_expLen (a b : Nat) (p : Payload) (s : State) :
    (emit a b p s).expLen = s.expLen := rfl
@[simp] theorem emit_tref (a b : Nat) (p : Payload) (s : State) :
    (emit a b p s).tref = s.tref := rfl
@[simp] theorem emit_pollMode (a b : Nat) (p : Payload) (s : State) :
    (emit a b p s).pollMode = s.pollMode := rfl
@[simp] theorem emit_pollModeValid (a b : Nat) (p : Payload) (s : State) :
    (emit a b p s).pollModeValid = s.pollModeValid := rfl
@[simp] theorem emit_fatal (a b : Nat) (p : Payload) (s : State) :
    (emit a b p s).fatal = s.fatal := rfl
@[simp] theorem emit_rate (a b : Nat) (p : Payload) (s : State) :
    (emit a b p s).rate = s.rate := rfl
@[simp] theorem emit_gap (a b : Nat) (p : Payload) (s : State) :
    (emit a b p s).gap = s.gap := rfl
@[simp] theorem emit_started (a b : Nat) (p : Payload) (s : State) :
    (emit a b p s).started = s.started := rfl
@[simp] theorem emit_host (a b : Nat) (p : Payload) (s : State) :
    (emit a b p s).host = s.host := rfl
@[simp] theorem emit_out (a b : Nat) (p : Payload) (s : State) :
    (emit a b p s).out = s.out ++ [⟨a, b, p⟩] := rfl

/-! ## `pushBit` -/

@[simp] theorem pushBit_sidx (e : BitEntry) (s : State) :
    (pushBit e s).sidx = s.sidx := rfl
@[simp] theorem pushBit_cph (e : BitEntry) (s : State) :
    (pushBit e s).cph = s.cph := rfl
@[simp] theorem pushBit_prev (e : BitEntry) (s : State) :
    (pushBit e s).prev = s.prev := rfl
@[simp] theorem pushBit_prevValid (e : BitEntry) (s : State) :
    (pushBit e s).prevValid = s.prevValid := rfl
@[simp] theorem pushBit_fall (e : BitEntry) (s : State) :
    (pushBit e s).fall = s.fall := rfl
@[simp] theorem pushBit_rise (e : BitEntry) (s : State) :
    (pushBit e s).rise = s.rise := rfl
@[simp] theorem pushBit_riseValid (e : BitEntry) (s : State) :
    (pushBit e s).riseValid = s.riseValid := rfl
@[simp] theorem pushBit_low (e : BitEntry) (s : State) :
    (pushBit e s).low = s.low := rfl
@[simp] theorem pushBit_ph (e : BitEntry) (s : State) :
    (pushBit e s).ph = s.ph := rfl
@[simp] theorem pushBit_bitq (e : BitEntry) (s : State) :
    (pushBit e s).bitq = s.bitq ++ [e] := rfl
@[simp] theorem pushBit_byteq (e : BitEntry) (s : State) :
    (pushBit e s).byteq = s.byteq := rfl
@[simp] theorem pushBit_cmd (e : BitEntry) (s : State) :
    (pushBit e s).cmd = s.cmd := rfl
@[simp] theorem pushBit_expLen (e : BitEntry) (s : State) :
    (pushBit e s).expLen = s.expLen := rfl
@[simp] theorem pushBit_tref (e : BitEntry) (s : State) :
    (pushBit e s).tref = s.tref := rfl
@[simp] theorem pushBit_pollMode (e : BitEntry) (s : State) :
    (pushBit e s).pollMode = s.pollMode := rfl
@[simp] theorem pushBit_pollModeValid (e : BitEntry) (s : State) :
    (pushBit e s).pollModeValid = s.pollModeValid := rfl
@[simp] theorem pushBit_fatal (e : BitEntry) (s : State) :
    (pushBit e s).fatal = s.fatal := rfl
@[simp] theorem pushBit_rate (e : BitEntry) (s : State) :
    (pushBit e s).rate = s.rate := rfl
@[simp] theorem pushBit_gap (e : BitEntry) (s : State) :
    (pushBit e s).gap = s.gap := rfl
@[simp] theorem pushBit_started (e : BitEntry) (s : State) :
    (pushBit e s).started = s.started := rfl
@[simp] theorem pushBit_host (e : BitEntry) (s : State) :
    (pushBit e s).host = s.host := rfl
@[simp] theorem pushBit_out (e : BitEntry) (s : State) :
    (pushBit e s).out = s.out := rfl

/-! ## `pushByte` -/

@[simp] theorem pushByte_sidx (e : ByteEntry) (s : State) :
    (pushByte e s).sidx = s.sidx := rfl
@[simp] theorem pushByte_cph (e : ByteEntry) (s : State) :
    (pushByte e s).cph = s.cph := rfl
@[simp] theorem pushByte_prev (e : ByteEntry) (s : State) :
    (pushByte e s).prev = s.prev := rfl
@[simp] theorem pushByte_prevValid (e : ByteEntry) (s : State) :
    (pushByte e s).prevValid = s.prevValid := rfl
@[simp] theorem pushByte_fall (e : ByteEntry) (s : State) :
    (pushByte e s).fall = s.fall := rfl
@[simp] theorem pushByte_rise (e : ByteEntry) (s : State) :
    (pushByte e s).rise = s.rise := rfl
@[simp] theorem pushByte_riseValid (e : ByteEntry) (s : State) :
    (pushByte e s).riseValid = s.riseValid := rfl
@[simp] theorem pushByte_low (e : ByteEntry) (s : State) :
    (pushByte e s).low = s.low := rfl
@[simp] theorem pushByte_ph (e : ByteEntry) (s : State) :
    (pushByte e s).ph = s.ph := rfl
@[simp] theorem pushByte_bitq (e : ByteEntry) (s : State) :
    (pushByte e s).bitq = s.bitq := rfl
@[simp] theorem pushByte_byteq (e : ByteEntry) (s : State) :
    (pushByte e s).byteq = s.byteq ++ [e] := rfl
@[simp] theorem pushByte_cmd (e : ByteEntry) (s : State) :
    (pushByte e s).cmd = s.cmd := rfl
@[simp] theorem pushByte_expLen (e : ByteEntry) (s : State) :
    (pushByte e s).expLen = s.expLen := rfl
@[simp] theorem pushByte_tref (e : ByteEntry) (s : State) :
    (pushByte e s).tref = s.tref := rfl
@[simp] theorem pushByte_pollMode (e : ByteEntry) (s : State) :
    (pushByte e s).pollMode = s.pollMode := rfl
@[simp] theorem pushByte_pollModeValid (e : ByteEntry) (s : State) :
    (pushByte e s).pollModeValid = s.pollModeValid := rfl
@[simp] theorem pushByte_fatal (e : ByteEntry) (s : State) :
    (pushByte e s).fatal = s.fatal := rfl
@[simp] theorem pushByte_rate (e : ByteEntry) (s : State) :
    (pushByte e s).rate = s.rate := rfl
@[simp] theorem pushByte_gap (e : ByteEntry) (s : State) :
    (pushByte e s).gap = s.gap := rfl
@[simp] theorem pushByte_started (e : ByteEntry) (s : State) :
    (pushByte e s).started = s.started := rfl
@[simp] theorem pushByte_host (e : ByteEntry) (s : State) :
    (pushByte e s).host = s.host := rfl
@[simp] theorem pushByte_out (e : ByteEntry) (s : State) :
    (pushByte e s).out = s.out := rfl

/-! ## `clearQueues` -/

@[simp] theorem clearQueues_sidx (s : State) :
    (clearQueues s).sidx = s.sidx := rfl
@[simp] theorem clearQueues_cph (s : State) :
    (clearQueues s).cph = s.cph := rfl
@[simp] theorem clearQueues_prev (s : State) :
    (clearQueues s).prev = s.prev := rfl
@[simp] theorem clearQueues_prevValid (s : State) :
    (clearQueues s).prevValid = s.prevValid := rfl
@[simp] theorem clearQueues_fall (s : State) :
    (clearQueues s).fall = s.fall := rfl
@[simp] theorem clearQueues_rise (s : State) :
    (clearQueues s).rise = s.rise := rfl
@[simp] theorem clearQueues_riseValid (s : State) :
    (clearQueues s).riseValid = s.riseValid := rfl
@[simp] theorem clearQueues_low (s : State) :
    (clearQueues s).low = s.low := rfl
@[simp] theorem clearQueues_ph (s : State) :
    (clearQueues s).ph = s.ph := rfl
@[simp] theorem clearQueues_bitq (s : State) :
    (clearQueues s).bitq = [] := rfl
@[simp] theorem clearQueues_byteq (s : State) :
    (clearQueues s).byteq = [] := rfl
@[simp] theorem clearQueues_cmd (s : State) :
    (clearQueues s).cmd = s.cmd := rfl
@[simp] theorem clearQueues_expLen (s : State) :
    (clearQueues s).expLen = s.expLen := rfl
@[simp] theorem clearQueues_tref (s : State) :
    (clearQueues s).tref = s.tref := rfl
@[simp] theorem clearQueues_pollMode (s : State) :
    (clearQueues s).pollMode = s.pollMode := rfl
@[simp] theorem clearQueues_pollModeValid (s : State) :
    (clearQueues s).pollModeValid = s.pollModeValid := rfl
@[simp] theorem clearQueues_fatal (s : State) :
    (clearQueues s).fatal = s.fatal := rfl
@[simp] theorem clearQueues_rate (s : State) :
    (clearQueues s).rate = s.rate := rfl
@[simp] theorem clearQueues_gap (s : State) :
    (clearQueues s).gap = s.gap := rfl
@[simp] theorem clearQueues_started (s : State) :
    (clearQueues s).started = s.started := rfl
@[simp] theorem clearQueues_host (s : State) :
    (clearQueues s).host = s.host := rfl
@[simp] theorem clearQueues_out (s : State) :
    (clearQueues s).out = s.out := rfl

/-! ## `closeCommand` -/

@[simp] theorem closeCommand_sidx (s : State) :
    (closeCommand s).sidx = s.sidx := rfl
@[simp] theorem closeCommand_cph (s : State) :
    (closeCommand s).cph = s.cph := rfl
@[simp] theorem closeCommand_prev (s : State) :
    (closeCommand s).prev = s.prev := rfl
@[simp] theorem closeCommand_prevValid (s : State) :
    (closeCommand s).prevValid = s.prevValid := rfl
@[simp] theorem closeCommand_fall (s : State) :
    (closeCommand s).fall = s.fall := rfl
@[simp] theorem closeCommand_rise (s : State) :
    (closeCommand s).rise = s.rise := rfl
@[simp] theorem closeCommand_riseValid (s : State) :
    (closeCommand s).riseValid = s.riseValid := rfl
@[simp] theorem closeCommand_low (s : State) :
    (closeCommand s).low = s.low := rfl
@[simp] theorem closeCommand_ph (s : State) :
    (closeCommand s).ph = .awaitCommandStop := rfl
@[simp] theorem closeCommand_bitq (s : State) :
    (closeCommand s).bitq = s.bitq := rfl
@[simp] theorem closeCommand_byteq (s : State) :
    (closeCommand s).byteq = [] := rfl
@[simp] theorem closeCommand_cmd (s : State) :
    (closeCommand s).cmd = s.cmd := rfl
@[simp] theorem closeCommand_expLen (s : State) :
    (closeCommand s).expLen = s.expLen := rfl
@[simp] theorem closeCommand_tref (s : State) :
    (closeCommand s).tref = s.tref := rfl
@[simp] theorem closeCommand_pollMode (s : State) :
    (closeCommand s).pollMode = s.pollMode := rfl
@[simp] theorem closeCommand_pollModeValid (s : State) :
    (closeCommand s).pollModeValid = s.pollModeValid := rfl
@[simp] theorem closeCommand_fatal (s : State) :
    (closeCommand s).fatal = s.fatal := rfl
@[simp] theorem closeCommand_rate (s : State) :
    (closeCommand s).rate = s.rate := rfl
@[simp] theorem closeCommand_gap (s : State) :
    (closeCommand s).gap = s.gap := rfl
@[simp] theorem closeCommand_started (s : State) :
    (closeCommand s).started = s.started := rfl
@[simp] theorem closeCommand_host (s : State) :
    (closeCommand s).host = s.host := rfl
@[simp] theorem closeCommand_out (s : State) :
    (closeCommand s).out = s.out := rfl

/-! ## `recordRise` -/

@[simp] theorem recordRise_sidx (t : Nat) (s : State) :
    (recordRise t s).sidx = s.sidx := rfl
@[simp] theorem recordRise_cph (t : Nat) (s : State) :
    (recordRise t s).cph = .seekEvent := rfl
@[simp] theorem recordRise_prev (t : Nat) (s : State) :
    (recordRise t s).prev = s.prev := rfl
@[simp] theorem recordRise_prevValid (t : Nat) (s : State) :
    (recordRise t s).prevValid = s.prevValid := rfl
@[simp] theorem recordRise_fall (t : Nat) (s : State) :
    (recordRise t s).fall = s.fall := rfl
@[simp] theorem recordRise_rise (t : Nat) (s : State) :
    (recordRise t s).rise = t := rfl
@[simp] theorem recordRise_riseValid (t : Nat) (s : State) :
    (recordRise t s).riseValid = true := rfl
@[simp] theorem recordRise_low (t : Nat) (s : State) :
    (recordRise t s).low = t - s.fall := rfl
@[simp] theorem recordRise_ph (t : Nat) (s : State) :
    (recordRise t s).ph = s.ph := rfl
@[simp] theorem recordRise_bitq (t : Nat) (s : State) :
    (recordRise t s).bitq = s.bitq := rfl
@[simp] theorem recordRise_byteq (t : Nat) (s : State) :
    (recordRise t s).byteq = s.byteq := rfl
@[simp] theorem recordRise_cmd (t : Nat) (s : State) :
    (recordRise t s).cmd = s.cmd := rfl
@[simp] theorem recordRise_expLen (t : Nat) (s : State) :
    (recordRise t s).expLen = s.expLen := rfl
@[simp] theorem recordRise_tref (t : Nat) (s : State) :
    (recordRise t s).tref = s.tref := rfl
@[simp] theorem recordRise_pollMode (t : Nat) (s : State) :
    (recordRise t s).pollMode = s.pollMode := rfl
@[simp] theorem recordRise_pollModeValid (t : Nat) (s : State) :
    (recordRise t s).pollModeValid = s.pollModeValid := rfl
@[simp] theorem recordRise_fatal (t : Nat) (s : State) :
    (recordRise t s).fatal = s.fatal := rfl
@[simp] theorem recordRise_rate (t : Nat) (s : State) :
    (recordRise t s).rate = s.rate := rfl
@[simp] theorem recordRise_gap (t : Nat) (s : State) :
    (recordRise t s).gap = s.gap := rfl
@[simp] theorem recordRise_started (t : Nat) (s : State) :
    (recordRise t s).started = s.started := rfl
@[simp] theorem recordRise_host (t : Nat) (s : State) :
    (recordRise t s).host = s.host := rfl
@[simp] theorem recordRise_out (t : Nat) (s : State) :
    (recordRise t s).out = s.out := rfl

/-! ## `advance` -/

@[simp] theorem advance_sidx (d : Bool) (t : Nat) (s : State) :
    (advance d t s).sidx = t + 1 := rfl
@[simp] theorem advance_cph (d : Bool) (t : Nat) (s : State) :
    (advance d t s).cph = s.cph := rfl
@[simp] theorem advance_prev (d : Bool) (t : Nat) (s : State) :
    (advance d t s).prev = d := rfl
@[simp] theorem advance_prevValid (d : Bool) (t : Nat) (s : State) :
    (advance d t s).prevValid = true := rfl
@[simp] theorem advance_fall (d : Bool) (t : Nat) (s : State) :
    (advance d t s).fall = s.fall := rfl
@[simp] theorem advance_rise (d : Bool) (t : Nat) (s : State) :
    (advance d t s).rise = s.rise := rfl
@[simp] theorem advance_riseValid (d : Bool) (t : Nat) (s : State) :
    (advance d t s).riseValid = s.riseValid := rfl
@[simp] theorem advance_low (d : Bool) (t : Nat) (s : State) :
    (advance d t s).low = s.low := rfl
@[simp] theorem advance_ph (d : Bool) (t : Nat) (s : State) :
    (advance d t s).ph = s.ph := rfl
@[simp] theorem advance_bitq (d : Bool) (t : Nat) (s : State) :
    (advance d t s).bitq = s.bitq := rfl
@[simp] theorem advance_byteq (d : Bool) (t : Nat) (s : State) :
    (advance d t s).byteq = s.byteq := rfl
@[simp] theorem advance_cmd (d : Bool) (t : Nat) (s : State) :
    (advance d t s).cmd = s.cmd := rfl
@[simp] theorem advance_expLen (d : Bool) (t : Nat) (s : State) :
    (advance d t s).expLen = s.expLen := rfl
@[simp] theorem advance_tref (d : Bool) (t : Nat) (s : State) :
    (advance d t s).tref = s.tref := rfl
@[simp] theorem advance_pollMode (d : Bool) (t : Nat) (s : State) :
    (advance d t s).pollMode = s.pollMode := rfl
@[simp] theorem advance_pollModeValid (d : Bool) (t : Nat) (s : State) :
    (advance d t s).pollModeValid = s.pollModeValid := rfl
@[simp] theorem advance_fatal (d : Bool) (t : Nat) (s : State) :
    (advance d t s).fatal = s.fatal := rfl
@[simp] theorem advance_rate (d : Bool) (t : Nat) (s : State) :
    (advance d t s).rate = s.rate := rfl
@[simp] theorem advance_gap (d : Bool) (t : Nat) (s : State) :
    (advance d t s).gap = s.gap := rfl
@[simp] theorem advance_started (d : Bool) (t : Nat) (s : State) :
    (advance d t s).started = s.started := rfl
@[simp] theorem advance_host (d : Bool) (t : Nat) (s : State) :
    (advance d t s).host = s.host := rfl
@[simp] theorem advance_out (d : Bool) (t : Nat) (s : State) :
    (advance d t s).out = s.out := rfl

end Sys2Proof.Machine
end

