-- ==== Sys2Proof/Laws/Ops.lean ====
section
/-! SUPPORT. What each shared operation does, said once. -/

namespace Sys2Proof.Machine

/-! ## Sequencing -/

@[simp] theorem andThen_next (s : State) (f : State → Result) : andThen (.next s) f = f s := rfl

theorem andThen_eq_next {o : Result} {f : State → Result} {t : State} :
    andThen o f = .next t ↔ ∃ u, o = .next u ∧ f u = .next t := by
  cases o <;> simp [andThen]

theorem andThen_assoc (o : Result) (f g : State → Result) :
    andThen (andThen o f) g = andThen o fun s => andThen (f s) g := by
  cases o <;> rfl

/-! ## Exceptional events -/

@[simp] theorem takeEvent_unknownOpcode (s : State) :
    takeEvent .unknownOpcode s = { s with byteq := s.byteq.tail } := rfl

@[simp] theorem takeEvent_responseTimeout (s : State) :
    takeEvent .responseTimeout s = { s with bitq := [], byteq := [], ph := .initial } := rfl

@[simp] theorem takeEvent_desyncDiscard (s : State) :
    takeEvent .desyncDiscard s = { s with bitq := [] } := rfl

@[simp] theorem takeEvent_stopSlotZero (s : State) : takeEvent .stopSlotZero s = s := rfl

/-- Every event but ConfigError goes on in the phase rule R261 names. -/
theorem takeEvent_resumes {e : Event} {s : State} {ph : ProtocolPhase}
    (h : resumePhase e s.ph = some ph) : (takeEvent e s).ph = ph := by
  cases e <;> simp_all [resumePhase, takeEvent]

/-! ## Session start -/

/-- The whole of `SessionStart`: nothing of the state before survives but the host's acts. -/
theorem sessionStart_eq (rate gap : Nat) (s : State) :
    sessionStart rate gap s =
      { State.reset with
        rate := rate, gap := gap, host := s.host
        fatal := decide (rate < 2000000)
        out := if rate < 2000000 then [⟨0, 0, .rateFatal⟩]
          else if rate < 5000000 then [⟨0, 0, .rateLow⟩] else [] } := by
  simp only [sessionStart, rateCheck, initSession, rateTooLow, rateBorderline, takeEvent, emit,
    State.reset]
  by_cases h : rate < 2000000
  · simp [h]
  · by_cases h' : rate < 5000000 <;> simp [h, h']

/-! ## Command completion -/

theorem onceQueued_of_le {n : Nat} {s : State} (f : State → State) (h : n ≤ s.byteq.length) :
    onceQueued n s f = .next (f s) := if_pos h

theorem onceQueued_of_lt {n : Nat} {s : State} (f : State → State) (h : s.byteq.length < n) :
    onceQueued n s f = .next s := if_neg (by omega)

/-- What `latchCommand` leaves when an opcode byte is queued. -/
theorem latchCommand_cons {s : State} {e : ByteEntry} {rest : List ByteEntry} (op : Byte) (r : Nat)
    (h : s.byteq = e :: rest) :
    latchCommand op r s =
      { s with cmd := ⟨op, e.start⟩, expLen := r, out := s.out ++ [⟨e.start, e.finish, .cmd op⟩] } := by
  simp [latchCommand, h, emit]

/-- What `CommandComplete` leaves when an opcode byte is queued (rule R174). -/
theorem commandComplete_cons {s : State} {e : ByteEntry} {rest : List ByteEntry} (op : Byte)
    (r : Nat) (h : s.byteq = e :: rest) :
    commandComplete op r s =
      { s with
        cmd := ⟨op, e.start⟩, expLen := r, byteq := [], ph := .awaitCommandStop
        out := s.out ++ [⟨e.start, e.finish, .cmd op⟩] } := by
  rw [commandComplete, latchCommand_cons op r h]
  rfl

theorem emitCmdParam_cons {s : State} {e p1 p2 : ByteEntry} {rest : List ByteEntry}
    (mode rumble : Byte) (h : s.byteq = e :: p1 :: p2 :: rest) :
    emitCmdParam mode rumble s =
      { s with out := s.out ++ [⟨p1.start, p2.finish, .cmdParam mode rumble⟩] } := by
  simp [emitCmdParam, h, emit]

end Sys2Proof.Machine
end

