-- ==== Sys2Proof/Laws/Response.lean ====
section
/-! SUPPORT. What the response decoders can do: append field records over queued bytes, and write the
poll mode. -/

namespace Sys2Proof.Machine

/-- A field record over queued response bytes: it starts with one and ends with the same or a later
one (rule R123). -/
def IsField (s : State) (r : Record) : Prop :=
  r.payload.category = .responseField ∧
    ∃ (i j : Nat) (a b : ByteEntry), i ≤ j ∧ s.byteq[i]? = some a ∧ s.byteq[j]? = some b ∧
      r.start = a.start ∧ r.finish = b.finish

/-- `t` is `s` with at most `n` field records appended to its output stream. -/
def Annotates (n : Nat) (s t : State) : Prop :=
  ∃ rs, rs.length ≤ n ∧ (∀ r ∈ rs, IsField s r) ∧ t = { s with out := s.out ++ rs }

theorem Annotates.refl (s : State) : Annotates 0 s s := ⟨[], by simp, by simp, by simp⟩

theorem Annotates.trans {m n : Nat} {s t u : State} (h : Annotates m s t) (h' : Annotates n t u) :
    Annotates (m + n) s u := by
  obtain ⟨rs, hl, hf, rfl⟩ := h
  obtain ⟨rs', hl', hf', rfl⟩ := h'
  refine ⟨rs ++ rs', by simp; omega, ?_, by simp [List.append_assoc]⟩
  intro r hr
  rcases List.mem_append.1 hr with hr | hr
  · exact hf r hr
  · exact hf' r hr

theorem Annotates.mono {m n : Nat} {s t : State} (h : Annotates m s t) (hmn : m ≤ n) :
    Annotates n s t := by
  obtain ⟨rs, hl, hf, ht⟩ := h
  exact ⟨rs, by omega, hf, ht⟩

theorem emitField_annotates {i j : Nat} {p : Byte → Byte → Payload} (hij : i ≤ j)
    (hp : ∀ x y, (p x y).category = .responseField) (s : State) :
    Annotates 1 s (emitField i j p s) := by
  unfold emitField
  split
  · next a b ha hb =>
    refine ⟨[⟨a.start, b.finish, p a.val b.val⟩], by simp, ?_, rfl⟩
    intro r hr
    rw [List.mem_singleton.1 hr]
    exact ⟨hp _ _, i, j, a, b, hij, ha, hb, rfl, rfl⟩
  · exact (Annotates.refl s).mono (by omega)

/-- What `emitField` emits when both bytes are queued. -/
theorem emitField_of_getElem {i j : Nat} {a b : ByteEntry} {s : State} (p : Byte → Byte → Payload)
    (ha : s.byteq[i]? = some a) (hb : s.byteq[j]? = some b) :
    emitField i j p s = { s with out := s.out ++ [⟨a.start, b.finish, p a.val b.val⟩] } := by
  simp [emitField, ha, hb, emit]

theorem decodeStatus_annotates (s : State) : Annotates 6 s (decodeStatus s) := by
  have h : Annotates 5 s (emitTrig (emitCStick (emitMainStick (emitBtn1 (emitBtn0 s))))) :=
    ((((emitField_annotates (by omega) (fun _ _ => rfl) s).trans
      (emitField_annotates (by omega) (fun _ _ => rfl) _)).trans
      (emitField_annotates (by omega) (fun _ _ => rfl) _)).trans
      (emitField_annotates (by omega) (fun _ _ => rfl) _)).trans
      (emitField_annotates (by omega) (fun _ _ => rfl) _)
  unfold decodeStatus
  split
  · exact h.trans (emitField_annotates (by omega) (fun _ _ => rfl) _)
  · exact h.mono (by omega)

/-- An identify response annotates at most twice, and writes the poll mode only from response byte2
of a controller that reports type GC (rules R211, R220). -/
theorem decodeIdentify_cases (s : State) :
    Annotates 1 s (decodeIdentify s) ∨
      ∃ e u, s.byteq[2]? = some e ∧ Annotates 2 s u ∧
        decodeIdentify s = { u with pollMode := slice20 e.val, pollModeValid := true } := by
  have h0 : Annotates 1 s (emitId0 s) := emitField_annotates (by omega) (fun _ _ => rfl) s
  unfold decodeIdentify
  split
  · unfold emitId2
    split
    · next e he =>
      right
      refine ⟨e, emit e.start e.finish (.id2 (id2Of e.val)) (emitId0 s), ?_, ?_, rfl⟩
      · obtain ⟨_, _, _, h⟩ := h0
        rw [h] at he
        exact he
      · exact h0.trans (n := 1) ⟨[_], by simp, by
          intro r hr
          rw [List.mem_singleton.1 hr]
          exact ⟨rfl, 2, 2, e, e, le_rfl, he, he, rfl, rfl⟩, rfl⟩
    · exact .inl h0
  · exact .inl h0

/-- All a response decoder can do (rules R210, R226). -/
theorem decodeResponse_cases (s : State) :
    Annotates 6 s (decodeResponse s) ∨
      ∃ e u, s.byteq[2]? = some e ∧ Annotates 2 s u ∧
        (s.cmd.op = 0x00#8 ∨ s.cmd.op = 0xFF#8) ∧
        decodeResponse s = { u with pollMode := slice20 e.val, pollModeValid := true } := by
  unfold decodeResponse
  split
  · next h =>
    rcases decodeIdentify_cases s with h' | ⟨e, u, he, hu, h'⟩
    · exact .inl (h'.mono (by omega))
    · exact .inr ⟨e, u, he, hu, .inl (ofByte_eq_some.1 h), h'⟩
  · next h =>
    rcases decodeIdentify_cases s with h' | ⟨e, u, he, hu, h'⟩
    · exact .inl (h'.mono (by omega))
    · exact .inr ⟨e, u, he, hu, .inr (ofByte_eq_some.1 h), h'⟩
  iterate 4 exact .inl (decodeStatus_annotates s)
  all_goals exact .inl ((Annotates.refl s).mono (by omega))

end Sys2Proof.Machine
end

