-- ==== Sys2Proof/Laws/Frame.lean ====
section
/-! SUPPORT. What a command, a byte and a bit can do to the state: one inversion lemma for each stage
of the pipeline. -/

namespace Sys2Proof.Machine

/-! ## Commands -/

/-- The `command` records of a command whose bytes are queued (rules R174, R180). -/
def commandRecords (i : Instr) (q : List ByteEntry) : List Record :=
  match i, q with
  | .status mode rumble, e :: p1 :: p2 :: _ =>
    [⟨e.start, e.finish, .cmd 0x40#8⟩, ⟨p1.start, p2.finish, .cmdParam mode rumble⟩]
  | i, e :: _ => [⟨e.start, e.finish, .cmd i.opcode.byte⟩]
  | _, [] => []

/-- The state after a command whose opcode byte is `e`. -/
def commandDone (i : Instr) (e : ByteEntry) (s : State) : State :=
  { s with
    cmd := ⟨i.opcode.byte, e.start⟩, expLen := i.opcode.respLen
    byteq := [], ph := .awaitCommandStop
    out := s.out ++ commandRecords i s.byteq }

/-- What a command does once its bytes are queued. -/
theorem exec_of_queued {i : Instr} {s : State} {e : ByteEntry} {rest : List ByteEntry}
    (h : s.byteq = e :: rest) (hl : i.opcode.cmdLen ≤ s.byteq.length) :
    exec i s = .next (commandDone i e s) := by
  cases i
  iterate 5
    exact (onceQueued_of_le _ hl).trans (by rw [commandComplete_cons _ _ h]; simp [commandDone,
      commandRecords, h, Instr.opcode, Opcode.byte, Opcode.respLen, Opcode.row])
  case status mode rumble =>
    match rest, h with
    | p1 :: p2 :: rest, h =>
      rw [exec, execStatus, onceQueued_of_le (n := 3) _ hl]
      rw [latchCommand_cons _ _ h,
        emitCmdParam_cons (e := e) (p1 := p1) (p2 := p2) (rest := rest) mode rumble (by exact h)]
      simp [commandDone, commandRecords, closeCommand, h, Instr.opcode, Opcode.byte,
        Opcode.respLen, Opcode.row]
    | [], h => simp [h, Instr.opcode, Opcode.cmdLen, Opcode.row] at hl
    | [_], h => simp [h, Instr.opcode, Opcode.cmdLen, Opcode.row] at hl
  case kbd p q =>
    exact (onceQueued_of_le _ hl).trans (by rw [commandComplete_cons _ _ h]; simp [commandDone,
      commandRecords, h, Instr.opcode, Opcode.byte, Opcode.respLen, Opcode.row])

/-- A command whose bytes have not all arrived has no effect (rule R173). -/
theorem exec_of_short {i : Instr} {s : State} (hl : s.byteq.length < i.opcode.cmdLen) :
    exec i s = .next s := by
  cases i
  case status mode rumble => rw [exec, execStatus, onceQueued_of_lt (n := 3) _ hl]
  all_goals exact onceQueued_of_lt _ hl

theorem commandRecords_category {i : Instr} {q : List ByteEntry} {r : Record}
    (h : r ∈ commandRecords i q) : r.payload.category = .command := by
  unfold commandRecords at h
  split at h <;> simp only [List.mem_cons, List.not_mem_nil, or_false] at h
  · rcases h with rfl | rfl <;> rfl
  · subst h; rfl

theorem length_commandRecords (i : Instr) (q : List ByteEntry) : (commandRecords i q).length ≤ 2 := by
  unfold commandRecords
  split <;> simp

/-! ## What no bit touches -/

/-- The edge tracker's and the session's registers, and the host's list, which nothing that follows a
classified bit writes. -/
structure Keeps (s t : State) : Prop where
  sidx      : t.sidx = s.sidx
  cph       : t.cph = s.cph
  prev      : t.prev = s.prev
  prevValid : t.prevValid = s.prevValid
  fall      : t.fall = s.fall
  rise      : t.rise = s.rise
  riseValid : t.riseValid = s.riseValid
  low       : t.low = s.low
  fatal     : t.fatal = s.fatal
  rate      : t.rate = s.rate
  gap       : t.gap = s.gap
  started   : t.started = s.started
  host      : t.host = s.host

theorem Keeps.refl (s : State) : Keeps s s := by constructor <;> rfl

theorem Keeps.trans {s t u : State} (h : Keeps s t) (h' : Keeps t u) : Keeps s u := by
  constructor <;> first
    | exact h'.sidx.trans h.sidx | exact h'.cph.trans h.cph | exact h'.prev.trans h.prev
    | exact h'.prevValid.trans h.prevValid | exact h'.fall.trans h.fall
    | exact h'.rise.trans h.rise | exact h'.riseValid.trans h.riseValid
    | exact h'.low.trans h.low | exact h'.fatal.trans h.fatal | exact h'.rate.trans h.rate
    | exact h'.gap.trans h.gap | exact h'.started.trans h.started | exact h'.host.trans h.host

theorem decodeResponse_keeps (s : State) : Keeps s (decodeResponse s) := by
  rcases decodeResponse_cases s with ⟨rs, _, _, h⟩ | ⟨e, u, _, ⟨rs, _, _, h⟩, _, h'⟩
  · rw [h]; constructor <;> rfl
  · rw [h', h]; constructor <;> rfl

/-! ## Bytes -/

/-- All that can happen when a byte has been appended to `BYTEQ` (rules R170 to R173, R190). -/
inductive ByteEffect (s : State) : State → Prop where
  | waits {e : ByteEntry} {rest : List ByteEntry} (hph : s.ph = .initial) (hq : s.byteq = e :: rest)
      (hop : e.val = 0x40#8 ∨ e.val = 0x54#8) (hl : rest.length < 2) : ByteEffect s s
  | discarded {e : ByteEntry} {rest : List ByteEntry} (hph : s.ph = .initial)
      (hq : s.byteq = e :: rest) (hop : Opcode.ofByte e.val = none) :
      ByteEffect s { s with byteq := rest }
  | completed {e : ByteEntry} {rest : List ByteEntry} (i : Instr) (hph : s.ph = .initial)
      (hq : s.byteq = e :: rest) (hd : decode (queuedBytes s) = .command i) :
      ByteEffect s (commandDone i e s)
  | collected (hph : s.ph = .awaitResponseBytes) (hl : s.byteq.length < s.expLen) : ByteEffect s s
  | decoded (hph : s.ph = .awaitResponseBytes) (hl : s.expLen ≤ s.byteq.length) :
      ByteEffect s { decodeResponse s with ph := .awaitResponseStop }
  | ignored (hph : s.ph = .awaitCommandStop ∨ s.ph = .awaitResponseStop) : ByteEffect s s

theorem ByteEffect.keeps {s t : State} (h : ByteEffect s t) : Keeps s t := by
  cases h
  case decoded =>
    exact (decodeResponse_keeps s).trans (by constructor <;> rfl)
  all_goals constructor <;> rfl

/-- A byte only appends records: at most two of category `command`, or at most six of category
`response_field`. -/
theorem ByteEffect.out {s t : State} (h : ByteEffect s t) :
    ∃ rs, t.out = s.out ++ rs ∧
      ((rs.length ≤ 2 ∧ ∀ r ∈ rs, r.payload.category = .command) ∨
        (rs.length ≤ 6 ∧ ∀ r ∈ rs, r.payload.category = .responseField)) := by
  cases h
  case completed e rest i _ _ _ =>
    exact ⟨_, rfl, .inl ⟨length_commandRecords _ _, fun _ h => commandRecords_category h⟩⟩
  case decoded =>
    rcases decodeResponse_cases s with ⟨rs, hl, hr, h⟩ | ⟨e, u, _, ⟨rs, hl, hr, hu⟩, _, h⟩
    · exact ⟨rs, by rw [h], .inr ⟨hl, fun r hm => (hr r hm).1⟩⟩
    · exact ⟨rs, by rw [h, hu], .inr ⟨by omega, fun r hm => (hr r hm).1⟩⟩
  all_goals exact ⟨[], by simp, .inl (by simp)⟩

/-- The frame state machine answers every queued byte with a next state, and this is all it does. -/
theorem frameStep_cases {s : State} (hq : s.byteq ≠ []) :
    ∃ t, frameStep s = .next t ∧ ByteEffect s t := by
  obtain ⟨e, rest, hq⟩ := List.exists_cons_of_ne_nil hq
  unfold frameStep
  split
  · next hph =>
    unfold initialStep
    split
    · next i hd =>
      have hl := decode_command_length hd
      rw [queuedBytes, List.length_map] at hl
      exact ⟨_, exec_of_queued hq hl, .completed i hph hq hd⟩
    · next b hd =>
      rw [queuedBytes, hq, List.map_cons] at hd
      exact ⟨_, rfl, by
        simpa [hq] using ByteEffect.discarded hph hq (decode_unknown hd).1⟩
    · next o hd =>
      rw [queuedBytes, hq, List.map_cons] at hd
      obtain ⟨hb, ho, hl⟩ := decode_awaiting hd
      refine ⟨_, rfl, .waits hph hq ?_ (by simpa using hl)⟩
      rcases ho with rfl | rfl
      · exact .inl hb
      · exact .inr hb
    · next hd =>
      rw [queuedBytes, hq, List.map_cons] at hd
      exact absurd hd decode_ne_empty
  · next hph =>
    refine ⟨_, rfl, ?_⟩
    unfold responseStep
    split
    · exact .decoded hph ‹_›
    · exact .collected hph (by omega)
  · exact ⟨_, rfl, .ignored (.inl ‹_›)⟩
  · exact ⟨_, rfl, .ignored (.inr ‹_›)⟩

/-! ## Bits -/

/-- `s` with the record of a classified bit (rule R137). -/
abbrev withBit (b : Bool) (st fi : Nat) (s : State) : State := emit st fi (.bit b) s

/-- `s` with an assembled byte queued and annotated, and `rest` the bits left over (rules R161,
R165). -/
abbrev withByte (v : Byte) (st fi : Nat) (rest : List BitEntry) (s : State) : State :=
  pushByte ⟨v, st, fi⟩ (emit st fi (.byte v) { s with bitq := rest })

/-- All that can happen when a bit has been classified (rules R160 to R165, R185 to R188). -/
inductive BitEffect (b : Bool) (st fi : Nat) (s : State) : State → Prop where
  | stopZero (hs : inStopSlot s = true) (hb : b = false) : BitEffect b st fi s (withBit b st fi s)
  | commandStop (hph : s.ph = .awaitCommandStop) (hb : b = true) :
      BitEffect b st fi s (commandStop st fi (withBit b st fi s))
  | responseStop (hph : s.ph = .awaitResponseStop) (hb : b = true) :
      BitEffect b st fi s (responseStop st fi (withBit b st fi s))
  | queued (hs : inStopSlot s = false) (hl : s.bitq.length < 7) :
      BitEffect b st fi s (pushBit ⟨b, st, fi⟩ (withBit b st fi s))
  | byte {b0 b1 b2 b3 b4 b5 b6 b7 : BitEntry} {rest : List BitEntry} {t : State}
      (hs : inStopSlot s = false)
      (hq : s.bitq ++ [⟨b, st, fi⟩] = b0 :: b1 :: b2 :: b3 :: b4 :: b5 :: b6 :: b7 :: rest)
      (ht : ByteEffect (withByte
        (packByte b0.val b1.val b2.val b3.val b4.val b5.val b6.val b7.val) b0.start b7.finish rest
        (withBit b st fi s)) t) : BitEffect b st fi s t

theorem BitEffect.keeps {b : Bool} {st fi : Nat} {s t : State} (h : BitEffect b st fi s t) :
    Keeps s t := by
  cases h
  case byte _ _ ht =>
    exact Keeps.trans (by constructor <;> rfl) ht.keeps
  all_goals constructor <;> rfl

/-- A classified bit appends its own record first. -/
theorem BitEffect.out {b : Bool} {st fi : Nat} {s t : State} (h : BitEffect b st fi s t) :
    ∃ more, t.out = s.out ++ ⟨st, fi, .bit b⟩ :: more ∧
      ∀ r ∈ more, r.payload.category ≠ .bit := by
  cases h
  case byte b0 b1 b2 b3 b4 b5 b6 b7 rest _ _ ht =>
    obtain ⟨rs, h, hc⟩ := ht.out
    refine ⟨⟨b0.start, b7.finish, .byte (packByte b0.val b1.val b2.val b3.val b4.val b5.val b6.val
      b7.val)⟩ :: rs, by rw [h]; simp, ?_⟩
    intro r hr
    rcases List.mem_cons.1 hr with rfl | hr
    · simp [Payload.category]
    · rcases hc with ⟨_, hc⟩ | ⟨_, hc⟩ <;> simp [hc r hr]
  case commandStop =>
    exact ⟨[⟨st, fi, .stop⟩], by simp [Machine.commandStop], by simp [Payload.category]⟩
  case responseStop =>
    exact ⟨[⟨st, fi, .stop⟩], by simp [Machine.responseStop], by simp [Payload.category]⟩
  all_goals exact ⟨[], by simp, by simp⟩

theorem inStopSlot_iff {s : State} :
    inStopSlot s = true ↔ s.ph = .awaitCommandStop ∨ s.ph = .awaitResponseStop := by
  unfold inStopSlot
  split <;> simp_all

theorem inStopSlot_eq_false_iff {s : State} :
    inStopSlot s = false ↔ s.ph = .initial ∨ s.ph = .awaitResponseBytes := by
  unfold inStopSlot
  split <;> simp_all

@[simp] theorem inStopSlot_emit (a b : Nat) (p : Payload) (s : State) :
    inStopSlot (emit a b p s) = inStopSlot s := rfl

theorem exists_eight {α : Type} {l : List α} (h : 8 ≤ l.length) :
    ∃ a0 a1 a2 a3 a4 a5 a6 a7 rest, l = a0 :: a1 :: a2 :: a3 :: a4 :: a5 :: a6 :: a7 :: rest := by
  match l, h with
  | a0 :: a1 :: a2 :: a3 :: a4 :: a5 :: a6 :: a7 :: rest, _ =>
    exact ⟨a0, a1, a2, a3, a4, a5, a6, a7, rest, rfl⟩

/-- Every classified bit is answered with a next state, and this is all it does. -/
theorem emitBit_cases (b : Bool) (st fi : Nat) (s : State) :
    ∃ t, emitBit b st fi s = .next t ∧ BitEffect b st fi s t := by
  unfold emitBit acceptBit
  rw [inStopSlot_emit]
  split
  · next hs =>
    refine ⟨_, rfl, ?_⟩
    cases b
    · exact .stopZero hs rfl
    · rcases inStopSlot_iff.1 hs with hph | hph
      · simpa [stopSlot, hph] using BitEffect.commandStop (st := st) (fi := fi) hph rfl
      · simpa [stopSlot, hph] using BitEffect.responseStop (st := st) (fi := fi) hph rfl
  · next hs =>
    have hs : inStopSlot s = false := by simpa using hs
    unfold assembleIfFull
    split
    · next hl =>
      obtain ⟨b0, b1, b2, b3, b4, b5, b6, b7, rest, hq⟩ :=
        exists_eight (l := s.bitq ++ [⟨b, st, fi⟩]) (by simpa [Config.bitqDepth] using hl)
      obtain ⟨t, ht, he⟩ := frameStep_cases (s := withByte
        (packByte b0.val b1.val b2.val b3.val b4.val b5.val b6.val b7.val) b0.start b7.finish rest
        (withBit b st fi s)) (by simp)
      refine ⟨t, ?_, .byte hs hq he⟩
      rw [← ht]
      simp only [assemble, pushBit, emit_bitq, hq]
      rfl
    · next hl =>
      refine ⟨_, rfl, .queued hs ?_⟩
      simp [Config.bitqDepth] at hl
      omega

end Sys2Proof.Machine
end

