-- ==== Sys2Proof/Laws/PerInstr.lean ====
section
/-! SUPPORT. Statements for all commands, made per command. -/

/-- The wire carries eight bits for each byte of the command length (rules R92, R93). -/
def Sys2Proof.Laws.EncodeLength.Statement (i : Sys2Proof.Instr) : Prop :=
  (Sys2Proof.encodeBits i).length = 8 * i.opcode.cmdLen

namespace Sys2Proof.Laws.EncodeLength

theorem probe : Statement .probe := rfl
theorem reset : Statement .reset := rfl
theorem origin : Statement .origin := rfl
theorem calib : Statement .calib := rfl
theorem statusl : Statement .statusl := rfl
theorem status (mode rumble : Byte) : Statement (.status mode rumble) := rfl
theorem kbd (param1 param2 : Byte) : Statement (.kbd param1 param2) := rfl

end Sys2Proof.Laws.EncodeLength
end

