-- ==== Sys2Proof/Laws/TickFields.lean ====
section
/-! SUPPORT. The fields that the end of a tick leaves alone: the desync check with the opening of a
cell, the timeout test, and the advance. -/

namespace Sys2Proof.Machine

theorem desyncCheck_cases (t : Nat) (s : State) :
    (gapExceeded s.riseValid s.rise s.gap t = true ∧ desyncCheck t s = { s with bitq := [] }) ∨
      (gapExceeded s.riseValid s.rise s.gap t = false ∧ desyncCheck t s = s) := by
  unfold desyncCheck
  split <;> simp_all

theorem timeoutCheck_cases (t : Nat) (s : State) :
    (timeoutDue t s = true ∧
        timeoutCheck t s = { s with bitq := [], byteq := [], ph := .initial }) ∨
      (timeoutDue t s = false ∧ timeoutCheck t s = s) := by
  unfold timeoutCheck
  split <;> simp_all

/-! ## `openCell` -/

@[simp] theorem openCell_fall (t : Nat) (s : State) : (openCell t s).fall = t := rfl
@[simp] theorem openCell_cph (t : Nat) (s : State) : (openCell t s).cph = .seekRise := rfl

@[simp] theorem openCell_sidx (t : Nat) (s : State) : (openCell t s).sidx = s.sidx := by
  rcases desyncCheck_cases t s with ⟨_, h⟩ | ⟨_, h⟩ <;> simp [openCell, h]
@[simp] theorem openCell_prev (t : Nat) (s : State) : (openCell t s).prev = s.prev := by
  rcases desyncCheck_cases t s with ⟨_, h⟩ | ⟨_, h⟩ <;> simp [openCell, h]
@[simp] theorem openCell_prevValid (t : Nat) (s : State) : (openCell t s).prevValid = s.prevValid := by
  rcases desyncCheck_cases t s with ⟨_, h⟩ | ⟨_, h⟩ <;> simp [openCell, h]
@[simp] theorem openCell_rise (t : Nat) (s : State) : (openCell t s).rise = s.rise := by
  rcases desyncCheck_cases t s with ⟨_, h⟩ | ⟨_, h⟩ <;> simp [openCell, h]
@[simp] theorem openCell_riseValid (t : Nat) (s : State) : (openCell t s).riseValid = s.riseValid := by
  rcases desyncCheck_cases t s with ⟨_, h⟩ | ⟨_, h⟩ <;> simp [openCell, h]
@[simp] theorem openCell_low (t : Nat) (s : State) : (openCell t s).low = s.low := by
  rcases desyncCheck_cases t s with ⟨_, h⟩ | ⟨_, h⟩ <;> simp [openCell, h]
@[simp] theorem openCell_ph (t : Nat) (s : State) : (openCell t s).ph = s.ph := by
  rcases desyncCheck_cases t s with ⟨_, h⟩ | ⟨_, h⟩ <;> simp [openCell, h]
@[simp] theorem openCell_byteq (t : Nat) (s : State) : (openCell t s).byteq = s.byteq := by
  rcases desyncCheck_cases t s with ⟨_, h⟩ | ⟨_, h⟩ <;> simp [openCell, h]
@[simp] theorem openCell_cmd (t : Nat) (s : State) : (openCell t s).cmd = s.cmd := by
  rcases desyncCheck_cases t s with ⟨_, h⟩ | ⟨_, h⟩ <;> simp [openCell, h]
@[simp] theorem openCell_expLen (t : Nat) (s : State) : (openCell t s).expLen = s.expLen := by
  rcases desyncCheck_cases t s with ⟨_, h⟩ | ⟨_, h⟩ <;> simp [openCell, h]
@[simp] theorem openCell_tref (t : Nat) (s : State) : (openCell t s).tref = s.tref := by
  rcases desyncCheck_cases t s with ⟨_, h⟩ | ⟨_, h⟩ <;> simp [openCell, h]
@[simp] theorem openCell_pollMode (t : Nat) (s : State) : (openCell t s).pollMode = s.pollMode := by
  rcases desyncCheck_cases t s with ⟨_, h⟩ | ⟨_, h⟩ <;> simp [openCell, h]
@[simp] theorem openCell_pollModeValid (t : Nat) (s : State) : (openCell t s).pollModeValid = s.pollModeValid := by
  rcases desyncCheck_cases t s with ⟨_, h⟩ | ⟨_, h⟩ <;> simp [openCell, h]
@[simp] theorem openCell_fatal (t : Nat) (s : State) : (openCell t s).fatal = s.fatal := by
  rcases desyncCheck_cases t s with ⟨_, h⟩ | ⟨_, h⟩ <;> simp [openCell, h]
@[simp] theorem openCell_rate (t : Nat) (s : State) : (openCell t s).rate = s.rate := by
  rcases desyncCheck_cases t s with ⟨_, h⟩ | ⟨_, h⟩ <;> simp [openCell, h]
@[simp] theorem openCell_gap (t : Nat) (s : State) : (openCell t s).gap = s.gap := by
  rcases desyncCheck_cases t s with ⟨_, h⟩ | ⟨_, h⟩ <;> simp [openCell, h]
@[simp] theorem openCell_started (t : Nat) (s : State) : (openCell t s).started = s.started := by
  rcases desyncCheck_cases t s with ⟨_, h⟩ | ⟨_, h⟩ <;> simp [openCell, h]
@[simp] theorem openCell_host (t : Nat) (s : State) : (openCell t s).host = s.host := by
  rcases desyncCheck_cases t s with ⟨_, h⟩ | ⟨_, h⟩ <;> simp [openCell, h]
@[simp] theorem openCell_out (t : Nat) (s : State) : (openCell t s).out = s.out := by
  rcases desyncCheck_cases t s with ⟨_, h⟩ | ⟨_, h⟩ <;> simp [openCell, h]

/-! ## `timeoutCheck` -/

@[simp] theorem timeoutCheck_sidx (t : Nat) (s : State) :
    (timeoutCheck t s).sidx = s.sidx := by
  rcases timeoutCheck_cases t s with ⟨_, h⟩ | ⟨_, h⟩ <;> simp [h]
@[simp] theorem timeoutCheck_cph (t : Nat) (s : State) :
    (timeoutCheck t s).cph = s.cph := by
  rcases timeoutCheck_cases t s with ⟨_, h⟩ | ⟨_, h⟩ <;> simp [h]
@[simp] theorem timeoutCheck_prev (t : Nat) (s : State) :
    (timeoutCheck t s).prev = s.prev := by
  rcases timeoutCheck_cases t s with ⟨_, h⟩ | ⟨_, h⟩ <;> simp [h]
@[simp] theorem timeoutCheck_prevValid (t : Nat) (s : State) :
    (timeoutCheck t s).prevValid = s.prevValid := by
  rcases timeoutCheck_cases t s with ⟨_, h⟩ | ⟨_, h⟩ <;> simp [h]
@[simp] theorem timeoutCheck_fall (t : Nat) (s : State) :
    (timeoutCheck t s).fall = s.fall := by
  rcases timeoutCheck_cases t s with ⟨_, h⟩ | ⟨_, h⟩ <;> simp [h]
@[simp] theorem timeoutCheck_rise (t : Nat) (s : State) :
    (timeoutCheck t s).rise = s.rise := by
  rcases timeoutCheck_cases t s with ⟨_, h⟩ | ⟨_, h⟩ <;> simp [h]
@[simp] theorem timeoutCheck_riseValid (t : Nat) (s : State) :
    (timeoutCheck t s).riseValid = s.riseValid := by
  rcases timeoutCheck_cases t s with ⟨_, h⟩ | ⟨_, h⟩ <;> simp [h]
@[simp] theorem timeoutCheck_low (t : Nat) (s : State) :
    (timeoutCheck t s).low = s.low := by
  rcases timeoutCheck_cases t s with ⟨_, h⟩ | ⟨_, h⟩ <;> simp [h]
@[simp] theorem timeoutCheck_cmd (t : Nat) (s : State) :
    (timeoutCheck t s).cmd = s.cmd := by
  rcases timeoutCheck_cases t s with ⟨_, h⟩ | ⟨_, h⟩ <;> simp [h]
@[simp] theorem timeoutCheck_expLen (t : Nat) (s : State) :
    (timeoutCheck t s).expLen = s.expLen := by
  rcases timeoutCheck_cases t s with ⟨_, h⟩ | ⟨_, h⟩ <;> simp [h]
@[simp] theorem timeoutCheck_tref (t : Nat) (s : State) :
    (timeoutCheck t s).tref = s.tref := by
  rcases timeoutCheck_cases t s with ⟨_, h⟩ | ⟨_, h⟩ <;> simp [h]
@[simp] theorem timeoutCheck_pollMode (t : Nat) (s : State) :
    (timeoutCheck t s).pollMode = s.pollMode := by
  rcases timeoutCheck_cases t s with ⟨_, h⟩ | ⟨_, h⟩ <;> simp [h]
@[simp] theorem timeoutCheck_pollModeValid (t : Nat) (s : State) :
    (timeoutCheck t s).pollModeValid = s.pollModeValid := by
  rcases timeoutCheck_cases t s with ⟨_, h⟩ | ⟨_, h⟩ <;> simp [h]
@[simp] theorem timeoutCheck_fatal (t : Nat) (s : State) :
    (timeoutCheck t s).fatal = s.fatal := by
  rcases timeoutCheck_cases t s with ⟨_, h⟩ | ⟨_, h⟩ <;> simp [h]
@[simp] theorem timeoutCheck_rate (t : Nat) (s : State) :
    (timeoutCheck t s).rate = s.rate := by
  rcases timeoutCheck_cases t s with ⟨_, h⟩ | ⟨_, h⟩ <;> simp [h]
@[simp] theorem timeoutCheck_gap (t : Nat) (s : State) :
    (timeoutCheck t s).gap = s.gap := by
  rcases timeoutCheck_cases t s with ⟨_, h⟩ | ⟨_, h⟩ <;> simp [h]
@[simp] theorem timeoutCheck_started (t : Nat) (s : State) :
    (timeoutCheck t s).started = s.started := by
  rcases timeoutCheck_cases t s with ⟨_, h⟩ | ⟨_, h⟩ <;> simp [h]
@[simp] theorem timeoutCheck_host (t : Nat) (s : State) :
    (timeoutCheck t s).host = s.host := by
  rcases timeoutCheck_cases t s with ⟨_, h⟩ | ⟨_, h⟩ <;> simp [h]
@[simp] theorem timeoutCheck_out (t : Nat) (s : State) :
    (timeoutCheck t s).out = s.out := by
  rcases timeoutCheck_cases t s with ⟨_, h⟩ | ⟨_, h⟩ <;> simp [h]

/-! ## `finishTick` -/

@[simp] theorem finishTick_sidx (d : Bool) (t : Nat) (s : State) :
    (finishTick d t s).sidx = t + 1 := rfl
@[simp] theorem finishTick_prev (d : Bool) (t : Nat) (s : State) :
    (finishTick d t s).prev = d := rfl
@[simp] theorem finishTick_prevValid (d : Bool) (t : Nat) (s : State) :
    (finishTick d t s).prevValid = true := rfl
@[simp] theorem finishTick_ph (d : Bool) (t : Nat) (s : State) :
    (finishTick d t s).ph = (timeoutCheck t s).ph := rfl
@[simp] theorem finishTick_bitq (d : Bool) (t : Nat) (s : State) :
    (finishTick d t s).bitq = (timeoutCheck t s).bitq := rfl
@[simp] theorem finishTick_byteq (d : Bool) (t : Nat) (s : State) :
    (finishTick d t s).byteq = (timeoutCheck t s).byteq := rfl
@[simp] theorem finishTick_cph (d : Bool) (t : Nat) (s : State) :
    (finishTick d t s).cph = s.cph := by
  simp [finishTick]
@[simp] theorem finishTick_fall (d : Bool) (t : Nat) (s : State) :
    (finishTick d t s).fall = s.fall := by
  simp [finishTick]
@[simp] theorem finishTick_rise (d : Bool) (t : Nat) (s : State) :
    (finishTick d t s).rise = s.rise := by
  simp [finishTick]
@[simp] theorem finishTick_riseValid (d : Bool) (t : Nat) (s : State) :
    (finishTick d t s).riseValid = s.riseValid := by
  simp [finishTick]
@[simp] theorem finishTick_low (d : Bool) (t : Nat) (s : State) :
    (finishTick d t s).low = s.low := by
  simp [finishTick]
@[simp] theorem finishTick_cmd (d : Bool) (t : Nat) (s : State) :
    (finishTick d t s).cmd = s.cmd := by
  simp [finishTick]
@[simp] theorem finishTick_expLen (d : Bool) (t : Nat) (s : State) :
    (finishTick d t s).expLen = s.expLen := by
  simp [finishTick]
@[simp] theorem finishTick_tref (d : Bool) (t : Nat) (s : State) :
    (finishTick d t s).tref = s.tref := by
  simp [finishTick]
@[simp] theorem finishTick_pollMode (d : Bool) (t : Nat) (s : State) :
    (finishTick d t s).pollMode = s.pollMode := by
  simp [finishTick]
@[simp] theorem finishTick_pollModeValid (d : Bool) (t : Nat) (s : State) :
    (finishTick d t s).pollModeValid = s.pollModeValid := by
  simp [finishTick]
@[simp] theorem finishTick_fatal (d : Bool) (t : Nat) (s : State) :
    (finishTick d t s).fatal = s.fatal := by
  simp [finishTick]
@[simp] theorem finishTick_rate (d : Bool) (t : Nat) (s : State) :
    (finishTick d t s).rate = s.rate := by
  simp [finishTick]
@[simp] theorem finishTick_gap (d : Bool) (t : Nat) (s : State) :
    (finishTick d t s).gap = s.gap := by
  simp [finishTick]
@[simp] theorem finishTick_started (d : Bool) (t : Nat) (s : State) :
    (finishTick d t s).started = s.started := by
  simp [finishTick]
@[simp] theorem finishTick_host (d : Bool) (t : Nat) (s : State) :
    (finishTick d t s).host = s.host := by
  simp [finishTick]
@[simp] theorem finishTick_out (d : Bool) (t : Nat) (s : State) :
    (finishTick d t s).out = s.out := by
  simp [finishTick]

end Sys2Proof.Machine
end

