-- ==== Sys2Proof/Laws/Tick.lean ====
section
/-! SUPPORT. What a tick and a step can do. -/

namespace Sys2Proof.Machine

theorem edge_eq_falling {s : State} {d : Bool} :
    s.edge d = .falling ↔ s.prevValid = true ∧ s.prev = true ∧ d = false := by
  cases hv : s.prevValid <;> cases hp : s.prev <;> cases d <;> simp [State.edge, detectEdge, hv, hp]

theorem edge_eq_rising {s : State} {d : Bool} :
    s.edge d = .rising ↔ s.prevValid = true ∧ s.prev = false ∧ d = true := by
  cases hv : s.prevValid <;> cases hp : s.prev <;> cases d <;> simp [State.edge, detectEdge, hv, hp]

theorem idleReached_iff {high low : Nat} : idleReached high low = true ↔ 4 * low ≤ high := by
  simp [idleReached]

theorem idleReached_eq_false_iff {high low : Nat} :
    idleReached high low = false ↔ high < 4 * low := by
  simp [idleReached]

/-- All the classifier's part of a tick can do (rule R141). -/
inductive ClassifyEffect (e : Edge) (s : State) : State → Prop where
  | unchanged
      (h : (s.cph = .seekFall ∧ e ≠ .falling) ∨ (s.cph = .seekRise ∧ e ≠ .rising) ∨
        (s.cph = .seekEvent ∧ e ≠ .falling ∧ idleReached (s.sidx - s.rise) s.low = false)) :
      ClassifyEffect e s s
  | opened (hc : s.cph = .seekFall) (he : e = .falling) : ClassifyEffect e s (openCell s.sidx s)
  | rose (hc : s.cph = .seekRise) (he : e = .rising) : ClassifyEffect e s (recordRise s.sidx s)
  | closedByFall {t : State} (hc : s.cph = .seekEvent) (he : e = .falling)
      (ht : BitEffect (bitValue (s.sidx - s.rise) s.low) s.fall s.sidx s t) :
      ClassifyEffect e s (openCell s.sidx t)
  | closedByIdle {t : State} (hc : s.cph = .seekEvent) (he : e ≠ .falling)
      (hi : idleReached (s.sidx - s.rise) s.low = true) (ht : BitEffect true s.fall s.sidx s t) :
      ClassifyEffect e s { t with cph := .seekFall }

/-- The classifier's part of a tick leaves the sample index, the previous level, the session's
registers and the host's list alone. -/
theorem ClassifyEffect.session {e : Edge} {s t : State} (h : ClassifyEffect e s t) :
    t.sidx = s.sidx ∧ t.prev = s.prev ∧ t.prevValid = s.prevValid ∧ t.fatal = s.fatal ∧
      t.rate = s.rate ∧ t.gap = s.gap ∧ t.started = s.started ∧ t.host = s.host := by
  cases h
  case closedByFall t _ _ hb =>
    have k := hb.keeps
    refine ⟨?_, ?_, ?_, ?_, ?_, ?_, ?_, ?_⟩ <;> simp only [openCell_sidx, openCell_prev,
      openCell_prevValid, openCell_fatal, openCell_rate, openCell_gap, openCell_started,
      openCell_host]
    exacts [k.sidx, k.prev, k.prevValid, k.fatal, k.rate, k.gap, k.started, k.host]
  case closedByIdle t _ _ _ hb =>
    have k := hb.keeps
    exact ⟨k.sidx, k.prev, k.prevValid, k.fatal, k.rate, k.gap, k.started, k.host⟩
  all_goals simp

theorem closeByIdle_cases {e : Edge} {s : State} (hc : s.cph = .seekEvent) (he : e ≠ .falling) :
    ∃ t, (if idleReached (s.sidx - s.rise) s.low then closeByIdle s.sidx s else .next s) = .next t ∧
      ClassifyEffect e s t := by
  split
  · next hi =>
    obtain ⟨u, hu, hb⟩ := emitBit_cases true s.fall s.sidx s
    exact ⟨_, by rw [closeByIdle, hu, andThen_next], .closedByIdle hc he hi hb⟩
  · next hi => exact ⟨s, rfl, .unchanged (.inr (.inr ⟨hc, he, by simpa using hi⟩))⟩

/-- The classifier answers every sample with a next state, and this is all it does. -/
theorem classify_cases (e : Edge) (s : State) :
    ∃ t, classify e s = .next t ∧ ClassifyEffect e s t := by
  unfold classify
  split
  · exact ⟨_, rfl, .opened ‹_› rfl⟩
  · exact ⟨_, rfl, .unchanged (.inl ⟨‹_›, by simp⟩)⟩
  · exact ⟨_, rfl, .unchanged (.inl ⟨‹_›, by simp⟩)⟩
  · exact ⟨_, rfl, .rose ‹_› rfl⟩
  · exact ⟨_, rfl, .unchanged (.inr (.inl ⟨‹_›, by simp⟩))⟩
  · exact ⟨_, rfl, .unchanged (.inr (.inl ⟨‹_›, by simp⟩))⟩
  · next hc =>
    obtain ⟨u, hu, hb⟩ := emitBit_cases (bitValue (s.sidx - s.rise) s.low) s.fall s.sidx s
    exact ⟨_, by rw [closeByFall, hu, andThen_next], .closedByFall hc rfl hb⟩
  · exact closeByIdle_cases ‹_› (by simp)
  · exact closeByIdle_cases ‹_› (by simp)

theorem tick_of_fatal {s : State} (d : Bool) (h : s.fatal = true) : tick d s = .next s := by
  simp [tick, h]

/-- A tick outside a FATAL session: the classifier's part, then the timeout test and the advance. -/
theorem tick_cases {s : State} (d : Bool) (h : s.fatal = false) :
    ∃ u, tick d s = .next (finishTick d s.sidx u) ∧ ClassifyEffect (s.edge d) s u := by
  obtain ⟨u, hu, hc⟩ := classify_cases (s.edge d) s
  exact ⟨u, by simp [tick, h, hu], hc⟩

theorem timeoutDue_iff {t : Nat} {s : State} :
    timeoutDue t s = true ↔ s.ph = .awaitResponseBytes ∧ s.rate ≤ 1000 * (t - s.tref) := by
  simp [timeoutDue, timeoutReached]

/-! ## Steps -/

theorem step_of_silent {s : State} (h : s.host = []) : step s = .next s := by
  simp [step, h]

theorem step_of_sessionStart {s : State} {rate gap : Nat} {acts : List HostAct}
    (h : s.host = .sessionStart rate gap :: acts) :
    step s = .next (sessionStart rate gap { s with host := acts }) := by
  simp [step, h]

theorem step_of_sample {s : State} {d : Bool} {acts : List HostAct}
    (h : s.host = .sample d :: acts) (hs : s.started = true) :
    step s = tick d { s with host := acts } := by
  simp [step, h, hs]

theorem step_before_session {s : State} {d : Bool} {acts : List HostAct}
    (h : s.host = .sample d :: acts) (hs : s.started = false) :
    step s = .refused .tickBeforeSessionStart := by
  simp [step, h, hs]

end Sys2Proof.Machine
end

