-- ==== Sys2Proof/Laws/Run.lean ====
section
/-! SUPPORT. Runs of several steps. -/

namespace Sys2Proof.Machine

@[simp] theorem run_zero (s : State) : Sys2Proof.core.run 0 s = .next s := rfl

/-- A run whose first step is known. -/
theorem run_succ_of_next {s t : State} (n : Nat) (h : step s = .next t) :
    Sys2Proof.core.run (n + 1) s = Sys2Proof.core.run n t := by
  have h' : Sys2Proof.core.step s = .next t := h
  simp only [Host.Core.run, h']

/-- A run of `m + n` steps whose first `m` are known. -/
theorem run_add_of_next {s t : State} {m : Nat} (n : Nat) (h : Sys2Proof.core.run m s = .next t) :
    Sys2Proof.core.run (m + n) s = Sys2Proof.core.run n t := by
  induction m generalizing s with
  | zero =>
    cases h
    rw [Nat.zero_add]
  | succ m ih =>
    rw [Nat.add_right_comm]
    simp only [Host.Core.run] at h ⊢
    split at h
    · next u hu => simpa only [hu] using ih h
    · cases h
    · cases h

/-- Two states with the same first step run alike. -/
theorem run_succ_congr {s s' : State} (n : Nat) (h : step s = step s') :
    Sys2Proof.core.run (n + 1) s = Sys2Proof.core.run (n + 1) s' := by
  have h' : Sys2Proof.core.step s = Sys2Proof.core.step s' := h
  simp only [Host.Core.run, h']

/-- A sample in a session that decodes. -/
theorem step_of_decoding {s : State} {d : Bool} {acts : List HostAct} (hs : s.started = true)
    (hf : s.fatal = false) (h : s.host = .sample d :: acts) :
    ∃ u, step s = .next (finishTick d s.sidx u) ∧
      ClassifyEffect (s.edge d) { s with host := acts } u := by
  rw [step_of_sample h hs]
  exact tick_cases (s := { s with host := acts }) d hf

/-- A sample in a FATAL session: nothing but the host's list changes (rule R243). -/
theorem step_of_fatal {s : State} {d : Bool} {acts : List HostAct} (hs : s.started = true)
    (hf : s.fatal = true) (h : s.host = .sample d :: acts) : step s = .next { s with host := acts } := by
  rw [step_of_sample h hs]
  exact tick_of_fatal d hf

end Sys2Proof.Machine
end

