-- ==== Sys2Proof/Laws/Wave.lean ====
section
/-! SUPPORT. Runs over the samples of one cell in which no bit is classified: the low phase, the high
phase up to the idle point, and the two together. -/

namespace Sys2Proof.Machine

/-- A sample in a session that decodes, as one equation (rule R260). -/
theorem step_of_decoding_eq {s : State} {d : Bool} {acts : List HostAct} (hs : s.started = true)
    (hf : s.fatal = false) (h : s.host = .sample d :: acts) :
    step s = andThen (classify (s.edge d) { s with host := acts })
      fun u => .next (finishTick d s.sidx u) := by
  rw [step_of_sample h hs, tick, if_neg (by simp [hf])]
  rfl

/-- Outside AWAIT_RESPONSE_BYTES the timeout test does nothing. -/
theorem timeoutCheck_of_ne {t : Nat} {s : State} (h : s.ph ≠ .awaitResponseBytes) :
    timeoutCheck t s = s := by
  rcases timeoutCheck_cases t s with ⟨hd, _⟩ | ⟨_, h'⟩
  · exact absurd (timeoutDue_iff.1 hd).1 h
  · exact h'

/-- The desync check and the opening of a cell leave an empty `BITQ` empty. -/
theorem openCell_bitq_of_empty {t : Nat} {s : State} (h : s.bitq = []) : (openCell t s).bitq = [] := by
  rcases desyncCheck_cases t s with ⟨_, h'⟩ | ⟨_, h'⟩ <;> simp [openCell, h', h]

/-- No bit was classified between `s` and `t`: nothing was emitted, the session goes on, and in INITIAL
the frame's registers are as they were. -/
structure Quiet (s t : State) : Prop where
  out       : t.out = s.out
  gap       : t.gap = s.gap
  fatal     : t.fatal = s.fatal
  started   : t.started = s.started
  prevValid : t.prevValid = true
  initial   : s.ph = .initial →
    t.ph = .initial ∧ t.bitq = s.bitq ∧ t.byteq = s.byteq ∧ t.cmd = s.cmd ∧ t.expLen = s.expLen

theorem Quiet.trans {s t u : State} (h : Quiet s t) (h' : Quiet t u) : Quiet s u where
  out := h'.out.trans h.out
  gap := h'.gap.trans h.gap
  fatal := h'.fatal.trans h.fatal
  started := h'.started.trans h.started
  prevValid := h'.prevValid
  initial hp := by
    obtain ⟨hp', h1, h2, h3, h4⟩ := h.initial hp
    obtain ⟨hp'', h1', h2', h3', h4'⟩ := h'.initial hp'
    exact ⟨hp'', h1'.trans h1, h2'.trans h2, h3'.trans h3, h4'.trans h4⟩

/-- The cell in progress is the same in `s` and `t`, and so is the classifier's phase. -/
structure SameCell (s t : State) : Prop extends Quiet s t where
  cph       : t.cph = s.cph
  fall      : t.fall = s.fall
  rise      : t.rise = s.rise
  riseValid : t.riseValid = s.riseValid
  low       : t.low = s.low

theorem SameCell.trans {s t u : State} (h : SameCell s t) (h' : SameCell t u) : SameCell s u where
  toQuiet := h.toQuiet.trans h'.toQuiet
  cph := h'.cph.trans h.cph
  fall := h'.fall.trans h.fall
  rise := h'.rise.trans h.rise
  riseValid := h'.riseValid.trans h.riseValid
  low := h'.low.trans h.low

/-- The end of a tick is quiet where its classifier's part was. -/
theorem finishTick_quiet {d : Bool} {s u : State} (ho : u.out = s.out) (hg : u.gap = s.gap)
    (hf : u.fatal = s.fatal) (hs : u.started = s.started)
    (hi : s.ph = .initial → u.ph = .initial ∧ u.bitq = s.bitq ∧ u.byteq = s.byteq ∧ u.cmd = s.cmd ∧
      u.expLen = s.expLen) : Quiet s (finishTick d s.sidx u) where
  out := by simp [ho]
  gap := by simp [hg]
  fatal := by simp [hf]
  started := by simp [hs]
  prevValid := by simp
  initial hp := by
    obtain ⟨hp', h1, h2, h3, h4⟩ := hi hp
    simp [timeoutCheck_of_ne (s := u) (t := s.sidx) (by simp [hp']), hp', h1, h2, h3, h4]

/-- A sample at which the classifier does nothing. -/
theorem step_of_sameCell {s : State} {d : Bool} {acts : List HostAct} (hs : s.started = true)
    (hf : s.fatal = false) (h : s.host = .sample d :: acts)
    (hc : classify (s.edge d) { s with host := acts } = .next { s with host := acts }) :
    ∃ t, step s = .next t ∧ SameCell s t ∧ t.sidx = s.sidx + 1 ∧ t.prev = d ∧ t.host = acts := by
  rw [step_of_decoding_eq hs hf h, hc]
  refine ⟨_, rfl, ⟨finishTick_quiet rfl rfl rfl rfl ?_, ?_, ?_, ?_, ?_, ?_⟩, ?_, ?_, ?_⟩ <;> simp

/-- A run of low samples in SEEK_RISE (rule R139). -/
theorem run_low {n : Nat} {s : State} {acts : List HostAct} (hs : s.started = true)
    (hf : s.fatal = false) (hc : s.cph = .seekRise) (hv : s.prevValid = true) (hp : s.prev = false)
    (h : s.host = List.replicate n (.sample false) ++ acts) :
    ∃ t, Sys2Proof.core.run n s = .next t ∧ SameCell s t ∧ t.sidx = s.sidx + n ∧ t.prev = false ∧
      t.host = acts := by
  induction n generalizing s with
  | zero => exact ⟨s, rfl, ⟨⟨rfl, rfl, rfl, rfl, hv, by simp⟩, rfl, rfl, rfl, rfl, rfl⟩, rfl, hp, h⟩
  | succ n ih =>
    obtain ⟨u, hu, q, h1, h2, h3⟩ := step_of_sameCell hs hf h (by
      simp [State.edge, detectEdge, hv, hp, classify, hc])
    obtain ⟨t, ht, q', h1', h2', h3'⟩ :=
      ih (q.started.trans hs) (q.fatal.trans hf) (q.cph.trans hc) q.prevValid h2 h3
    exact ⟨t, by rw [run_succ_of_next _ hu, ht], q.trans q', by omega, h2', h3'⟩

/-- A run of high samples in SEEK_EVENT that ends before the idle point (rule R139). -/
theorem run_high {n : Nat} {s : State} {acts : List HostAct} (hs : s.started = true)
    (hf : s.fatal = false) (hc : s.cph = .seekEvent) (hv : s.prevValid = true) (hp : s.prev = true)
    (hr : s.rise ≤ s.sidx) (hi : s.sidx - s.rise + n ≤ 4 * s.low)
    (h : s.host = List.replicate n (.sample true) ++ acts) :
    ∃ t, Sys2Proof.core.run n s = .next t ∧ SameCell s t ∧ t.sidx = s.sidx + n ∧ t.prev = true ∧
      t.host = acts := by
  induction n generalizing s with
  | zero => exact ⟨s, rfl, ⟨⟨rfl, rfl, rfl, rfl, hv, by simp⟩, rfl, rfl, rfl, rfl, rfl⟩, rfl, hp, h⟩
  | succ n ih =>
    have hn : idleReached (s.sidx - s.rise) s.low = false := idleReached_eq_false_iff.2 (by omega)
    obtain ⟨u, hu, q, h1, h2, h3⟩ := step_of_sameCell hs hf h (by
      have he : s.edge true = .none := by simp [State.edge, detectEdge, hv, hp]
      simp [he, classify, hc, hn])
    have hur := q.rise
    have hul := q.low
    obtain ⟨t, ht, q', h1', h2', h3'⟩ := ih (q.started.trans hs) (q.fatal.trans hf)
      (q.cph.trans hc) q.prevValid h2 (by omega) (by omega) h3
    exact ⟨t, by rw [run_succ_of_next _ hu, ht], q.trans q', by omega, h2', h3'⟩

/-- A well-formed cell from just after its falling edge to just before the next: SEEK_EVENT with the
cell's times recorded, and nothing emitted (rule R132). -/
theorem run_cell {c : Cell} {acts : List HostAct} {s : State} (hs : s.started = true)
    (hf : s.fatal = false) (hc : s.cph = .seekRise) (hv : s.prevValid = true) (hp : s.prev = false)
    (hi : s.sidx = s.fall + 1) (hw : c.wf = true)
    (h : s.host = List.replicate (c.low - 1) (.sample false) ++
      (List.replicate c.high (.sample true) ++ acts)) :
    ∃ t, Sys2Proof.core.run (c.low - 1 + c.high) s = .next t ∧ Quiet s t ∧ t.cph = .seekEvent ∧
      t.prev = true ∧ t.fall = s.fall ∧ t.rise = s.fall + c.low ∧ t.low = c.low ∧
      t.riseValid = true ∧ t.sidx = s.fall + cellLength c ∧ t.host = acts := by
  simp only [Cell.wf, Cell.hasLow, Cell.hasHigh, Cell.notIdle, Bool.and_eq_true,
    decide_eq_true_eq] at hw
  obtain ⟨a, ha, q, a1, a2, a3⟩ := run_low hs hf hc hv hp h
  obtain ⟨m, hm⟩ : ∃ m, c.high = m + 1 := ⟨c.high - 1, by omega⟩
  rw [hm] at a3
  have hb := step_of_decoding_eq (q.started.trans hs) (q.fatal.trans hf) (d := true) a3
  rw [edge_eq_rising.2 ⟨q.prevValid, a2, rfl⟩] at hb
  simp only [classify, q.cph.trans hc, andThen_next] at hb
  generalize hbb : finishTick true a.sidx _ = b at hb
  have hquiet : Quiet a b := by rw [← hbb]; exact finishTick_quiet rfl rfl rfl rfl (by simp)
  have haf := q.fall
  have hrise : b.rise = s.fall + c.low := by rw [← hbb]; simp; omega
  have hfall : b.fall = s.fall := by rw [← hbb]; simp [haf]
  have hlow : b.low = c.low := by rw [← hbb]; simp; omega
  have hsidx : b.sidx = s.fall + c.low + 1 := by rw [← hbb]; simp; omega
  have hcph : b.cph = .seekEvent := by rw [← hbb]; simp
  have hrv : b.riseValid = true := by rw [← hbb]; simp
  obtain ⟨t, ht, q', t1, t2, t3⟩ := run_high (n := m) (acts := acts)
    (hquiet.started.trans (q.started.trans hs)) (hquiet.fatal.trans (q.fatal.trans hf)) hcph
    hquiet.prevValid (by rw [← hbb]; simp) (by omega) (by omega) (by rw [← hbb]; simp)
  refine ⟨t, ?_, (q.toQuiet.trans hquiet).trans q'.toQuiet, q'.cph.trans hcph, t2,
    q'.fall.trans hfall, q'.rise.trans hrise, q'.low.trans hlow, q'.riseValid.trans hrv, ?_, t3⟩
  · rw [hm, run_add_of_next _ ha, run_succ_of_next _ hb, ht]
  · rw [t1, hsidx, cellLength]; omega

end Sys2Proof.Machine
end

