-- ==== Sys2Proof/Tests/Slice0.lean ====
section
/-! SUPPORT. The model's own tests: words written out from the opcode table, the worked examples and
vectors of the specification one step at a time, and a witness for the hypotheses of each statement of
`Certificates/Slice0/Obligations.lean`. Every expected value is the specification's or is computed by
hand from its rules; the source of each is named above it. -/

namespace Sys2Proof.Tests

open Sys2Proof.Machine

/-! ## Helpers -/

/-- The next state, where there is one. -/
def after (o : Result) : Option State :=
  match o with
  | .next s => some s
  | .fault _ => none
  | .refused _ => none

/-- One field of the next state. -/
def look {α : Type} (f : State → α) (o : Result) : Option α := (after o).map f

/-- The line idling high after ten samples, with the given acts to come. -/
def idleLine (acts : List HostAct) : State :=
  { State.reset with prev := true, prevValid := true, sidx := 10, host := acts }

/-- The waveform `H10 L<low> H<high>` has been consumed (rule R111): a cell is in progress. -/
def inCell (low high : Nat) (acts : List HostAct) : State :=
  { idleLine acts with
    cph := .seekEvent, fall := 10, rise := 10 + low, riseValid := true, low := low
    sidx := 10 + low + high }

/-- Byte entries back to back from sample 10 at timing T20. -/
def bytesAt10 (vs : List Byte) : List ByteEntry := byteEntriesFrom 10 vs

/-- A session in INITIAL with these bytes queued. -/
def queued (vs : List Byte) : State := { State.reset with byteq := bytesAt10 vs }

/-- A response queued for opcode `op`, with spans from sample 215 as in the specification's vectors. -/
def response (op : Byte) (vs : List Byte) : State :=
  { State.reset with
    ph := .awaitResponseBytes, cmd := ⟨op, 10⟩, expLen := vs.length, tref := 10
    byteq := byteEntriesFrom 215 vs }

/-- The payloads a decoder emits. -/
def payloads (s : State) : List Payload := (decodeResponse s).out.map (·.payload)

/-- The payload words on the annotation port. -/
def words (s : State) : List (BitVec 16) := (payloads s).map Payload.pack

/-- Seven bits queued, back to back from sample 10 at timing T20. -/
def sevenBits (bs : List Bool) : List BitEntry := bitEntriesFrom 10 bs

/-! ## Words written out from the opcode table (rule R100) -/

theorem test_word_probe : decode [0b00000000#8] = .command .probe := by decide
theorem test_word_reset : decode [0b11111111#8] = .command .reset := by decide
theorem test_word_origin : decode [0b01000001#8] = .command .origin := by decide
theorem test_word_calib : decode [0b01000010#8] = .command .calib := by decide
theorem test_word_statusl : decode [0b01000011#8] = .command .statusl := by decide
theorem test_word_status :
    decode [0b01000000#8, 0b00000011#8, 0b00000001#8] = .command (.status 3 1) := by decide
theorem test_word_kbd :
    decode [0b01010100#8, 0b00000111#8, 0b10000000#8] = .command (.kbd 7 0x80) := by decide

/-- Rule R171: 0x01 and 0x44 are unrecognised; vector list of `95_test_vectors.md` section 3.3. -/
theorem test_word_unknown :
    ([0x01#8, 0x3F#8, 0x44#8, 0x4E#8, 0x53#8, 0x55#8, 0x80#8, 0xFE#8].map fun b => decode [b]) =
      [0x01#8, 0x3F#8, 0x44#8, 0x4E#8, 0x53#8, 0x55#8, 0x80#8, 0xFE#8].map .unknownOpcode := by
  decide

/-- Rule R173: fewer than three bytes wait. -/
theorem test_word_waits :
    decode [0x40#8, 0x03#8] = .awaiting .status ∧ decode [0x54#8] = .awaiting .kbd := by decide

/-- The packing table of `95_test_vectors.md` section 3.2 (rule R161). -/
theorem test_packing_table :
    packByte false true false true false true false false = 0x54#8 ∧
    packByte false true false false true true true false = 0x4E#8 ∧
    packByte true false false false false false false false = 0x80#8 := by decide

/-- The wire bits of `STATUS 0x03, 0x00` (program P2): 0x40 is a 0 cell, a 1 cell, six 0 cells. -/
theorem test_wire_bits :
    (encodeBits (.status 0x03 0x00)).take 16 =
      [false, true, false, false, false, false, false, false,
       false, false, false, false, false, false, true, true] := by decide

/-! ## Well-formedness: an ill-formed term for each check -/

theorem test_frame_wf : (Frame.mk .probe [0x09#8, 0x00#8, 0x03#8]).wf = true := by decide
/-- Rule R94: PROBE has three response bytes, not two. -/
theorem test_frame_length_refused : (Frame.mk .probe [0x09#8, 0x00#8]).wf = false := by decide
theorem test_cell_wf : (Cell.mk 6 24).wf = true := by decide
theorem test_cell_low_refused : (Cell.mk 0 5).hasLow = false ∧ (Cell.mk 0 5).wf = false := by decide
theorem test_cell_high_refused : (Cell.mk 5 0).hasHigh = false ∧ (Cell.mk 5 0).wf = false := by
  decide
theorem test_cell_idle_refused : (Cell.mk 6 25).notIdle = false ∧ (Cell.mk 6 25).wf = false := by
  decide

/-! ## One command each, placed and run in one step -/

/-- Rule R175's example: `Out(10, 170, command, CMD, 0x00)`, `CMD.first = 10`. -/
theorem test_probe_runs :
    look (fun s => (s.ph, s.cmd, s.expLen, s.out.drop 1))
        (step (State.reset.withFetchWord 8 0x00)) =
      some (.awaitCommandStop, ⟨0x00#8, 10⟩, 3,
        [⟨10, 170, .byte 0x00#8⟩, ⟨10, 170, .cmd 0x00#8⟩]) := by decide

/-- Rule R176: RESET keeps the poll mode. -/
theorem test_reset_keeps_poll_mode :
    look (fun s => (s.ph, s.cmd, s.expLen, s.pollMode, s.pollModeValid))
        (step ({ State.reset with pollMode := 3, pollModeValid := true }.withFetchWord 8 0xFF)) =
      some (.awaitCommandStop, ⟨0xFF#8, 10⟩, 3, 3, true) := by decide

/-- Rule R177's example: `Out(10, 170, command, CMD, 0x41)`. -/
theorem test_origin_runs :
    look (fun s => (s.ph, s.cmd, s.expLen, s.out.drop 2)) (step (State.reset.withFetchWord 8 0x41)) =
      some (.awaitCommandStop, ⟨0x41#8, 10⟩, 10, [⟨10, 170, .cmd 0x41#8⟩]) := by decide

/-- Rule R178's example: `Out(10, 170, command, CMD, 0x42)`. -/
theorem test_calib_runs :
    look (fun s => (s.ph, s.cmd, s.expLen, s.out.drop 2)) (step (State.reset.withFetchWord 8 0x42)) =
      some (.awaitCommandStop, ⟨0x42#8, 10⟩, 10, [⟨10, 170, .cmd 0x42#8⟩]) := by decide

/-- Rule R179's example: `Out(10, 170, command, CMD, 0x43)`. -/
theorem test_statusl_runs :
    look (fun s => (s.ph, s.cmd, s.expLen, s.out.drop 2)) (step (State.reset.withFetchWord 8 0x43)) =
      some (.awaitCommandStop, ⟨0x43#8, 10⟩, 10, [⟨10, 170, .cmd 0x43#8⟩]) := by decide

/-- Rule R180's example: the CMD record, then CMD_PARAM over (170, 490). -/
theorem test_status_runs :
    look (fun s => (s.ph, s.cmd, s.expLen, s.byteq, s.out.drop 1))
        (step (State.reset.withFetchWord 24 0x000340)) =
      some (.awaitCommandStop, ⟨0x40#8, 10⟩, 8, [],
        [⟨330, 490, .byte 0x00#8⟩, ⟨10, 170, .cmd 0x40#8⟩,
          ⟨170, 490, .cmdParam 0x03#8 0x00#8⟩]) := by decide

/-- Vector V11: `@490 (10,170) command CMD 0x54`, no CMD_PARAM. -/
theorem test_kbd_runs :
    look (fun s => (s.sidx, s.ph, s.cmd, s.expLen, s.out.drop 1))
        (step (State.reset.withFetchWord 24 0x000054)) =
      some (491, .awaitCommandStop, ⟨0x54#8, 10⟩, 8,
        [⟨330, 490, .byte 0x00#8⟩, ⟨10, 170, .cmd 0x54#8⟩]) := by decide

/-! ## One response each (the byte-level table of `95_test_vectors.md` section 3.4, vector V10) -/

/-- `09 55 FD`: ID0 0x000B, ID2 0x00FD, `POLLMODE <- 5`. -/
theorem test_probe_response :
    words (response 0x00 [0x09, 0x55, 0xFD]) = [0x000B, 0x00FD] ∧
    (decodeResponse (response 0x00 [0x09, 0x55, 0xFD])).pollMode = 5 := by decide

/-- `11 00 07` reports controller type 2: ID0 0x000D only, `POLLMODE` unchanged. -/
theorem test_reset_response_not_gc :
    words (response 0xFF [0x11, 0x00, 0x07]) = [0x000D] ∧
    (decodeResponse (response 0xFF [0x11, 0x00, 0x07])).pollModeValid = false := by decide

/-- Vector V10, payloads and spans. -/
theorem test_origin_response :
    words (response 0x41 [0x1F, 0x7F, 0x00, 0xFF, 0x7F, 0x81, 0x10, 0xFF, 0x02, 0x03]) =
      [0x001F, 0x007F, 0x807F, 0xFF01, 0x10FF, 0x0203] ∧
    ((decodeResponse (response 0x41 [0x1F, 0x7F, 0x00, 0xFF, 0x7F, 0x81, 0x10, 0xFF, 0x02, 0x03])).out.map
      fun r => (r.start, r.finish)) =
      [(215, 375), (375, 535), (535, 855), (855, 1175), (1175, 1495), (1495, 1815)] := by decide

/-- All clear: six records of zero payload. -/
theorem test_calib_response :
    words (response 0x42 [0x00, 0x00, 0x80, 0x80, 0x80, 0x80, 0x00, 0x00, 0x00, 0x00]) =
      [0, 0, 0, 0, 0, 0] := by decide

/-- Start, Z, STICK (127, -128), CSTICK (0, 0), TRIG (255, 0), ORIGIN (128, 127). -/
theorem test_statusl_response :
    words (response 0x43 [0x10, 0x10, 0xFF, 0x00, 0x80, 0x80, 0xFF, 0x00, 0x80, 0x7F]) =
      [0x0010, 0x0010, 0x7F80, 0x0000, 0xFF00, 0x807F] := by decide

/-- The ignored bits: BTN0 and BTN1 0, STICK (-128, -128), CSTICK (127, 127), TRIG (128, 127). -/
theorem test_status_response :
    words (response 0x40 [0xE0, 0x80, 0x00, 0x00, 0xFF, 0xFF, 0x80, 0x7F]) =
      [0x0000, 0x0000, 0x8080, 0x7F7F, 0x807F] := by decide

theorem test_kbd_response : words (response 0x54 [1, 2, 3, 4, 5, 6, 7, 8]) = [] := by decide

/-! ## The classifier -/

/-- Vector V1: high 5 below low 6 is a 0 over (10, 21). -/
theorem test_bit_zero :
    look (fun s => (s.out, s.cph, s.fall)) (step (inCell 6 5 [.sample false])) =
      some ([⟨10, 21, .bit false⟩], .seekRise, 21) := by decide

/-- Vector V2: high 6 equal to low 6 is a 1. -/
theorem test_bit_one :
    look (fun s => s.out) (step (inCell 6 6 [.sample false])) =
      some [⟨10, 22, .bit true⟩] := by decide

/-- Vectors V4 and V4b: idle at tick 40, nothing at tick 39. -/
theorem test_idle :
    look (fun s => (s.out, s.cph, s.fall)) (step (inCell 6 24 [.sample true])) =
      some ([⟨10, 40, .bit true⟩], .seekFall, 10) ∧
    look (fun s => (s.out, s.cph)) (step (inCell 6 23 [.sample true])) = some ([], .seekEvent) := by
  decide

/-- Vector V3: the falling edge at the idle point wins. -/
theorem test_edge_beats_idle :
    look (fun s => (s.out, s.cph, s.fall)) (step (inCell 6 24 [.sample false])) =
      some ([⟨10, 40, .bit true⟩], .seekRise, 40) := by decide

/-- Rule R132's example: `H10 L6 H1` gives `RISE = 16`, `LOW = 6`. -/
theorem test_rise :
    look (fun s => (s.rise, s.low, s.riseValid, s.cph))
        (step { idleLine [.sample true] with cph := .seekRise, fall := 10, prev := false, sidx := 16 }) =
      some (16, 6, true, .seekEvent) := by decide

/-- Rule R130: a line that is low at sample 0 gives no falling edge there. -/
theorem test_first_sample_no_edge :
    look (fun s => (s.cph, s.prev, s.prevValid, s.sidx))
        (step { State.reset with host := [.sample false] }) =
      some (.seekFall, false, true, 1) := by decide

/-- Vector V16: with the last rise at 55, the edge at 155 keeps the bits and the edge at 156 does not. -/
theorem test_desync_is_strict :
    let s : State := { idleLine [.sample false] with
      rise := 55, riseValid := true, sidx := 155, bitq := sevenBits [true, false, true] }
    look (fun t => t.bitq.length) (step s) = some 3 ∧
    look (fun t => t.bitq.length) (step { s with sidx := 156 }) = some 0 := by decide

/-! ## Stop slots, timeout, unknown opcodes, session start -/

/-- Rule R186's example: the stop of PROBE over (170, 195), `TREF = 10`. -/
theorem test_command_stop :
    look (fun s => (s.ph, s.tref, s.out))
        (emitBit true 170 195 { State.reset with ph := .awaitCommandStop, cmd := ⟨0x00#8, 10⟩ }) =
      some (.awaitResponseBytes, 10, [⟨170, 195, .bit true⟩, ⟨170, 195, .stop⟩]) := by decide

/-- Rule R187's example: `Out(695, 720, stop_bit, STOP, 0)`. -/
theorem test_response_stop :
    look (fun s => (s.ph, s.byteq, s.out.drop 1))
        (emitBit true 695 720 { response 0x00 [0x09, 0x00, 0x03] with ph := .awaitResponseStop }) =
      some (.initial, [], [⟨695, 720, .stop⟩]) := by decide

/-- Vector V6: a 0 in the stop slot is ignored. -/
theorem test_stop_slot_zero :
    look (fun s => (s.ph, s.bitq, s.out))
        (emitBit false 170 190 { State.reset with ph := .awaitCommandStop }) =
      some (.awaitCommandStop, [], [⟨170, 190, .bit false⟩]) := by decide

/-- Rule R192's example: `RATE = 5,000,000`, `TREF = 10`, no timeout at 5009, timeout at 5010. -/
theorem test_timeout :
    (timeoutCheck 5009 (response 0x00 [0x09])).ph = .awaitResponseBytes ∧
    (timeoutCheck 5010 (response 0x00 [0x09])).ph = .initial ∧
    (timeoutCheck 5010 (response 0x00 [0x09])).byteq = [] := by decide

/-- Program P4: 0x4E is removed, with no record. -/
theorem test_unknown_opcode :
    look (fun s => (s.ph, s.byteq, s.out)) (frameStep (queued [0x4E])) = some (.initial, [], []) := by
  decide

/-- Vector V9, the rate check at its boundaries. -/
theorem test_rate_check :
    ([0, 1999999, 2000000, 4999999, 5000000].map fun r =>
        ((sessionStart r 100 State.reset).fatal,
          (sessionStart r 100 State.reset).out.map (·.payload))) =
      [(true, [.rateFatal]), (true, [.rateFatal]), (false, [.rateLow]), (false, [.rateLow]),
        (false, [])] := by decide

/-- Rule R280, U6: a sample before the first session start is refused by name. -/
theorem test_refused_before_session :
    step { State.reset with started := false, host := [.sample true] } =
      .refused .tickBeforeSessionStart := rfl

/-- Rules R120 to R122: the annotation port for the CMD_PARAM record of program P2. -/
theorem test_annotation_port :
    (Record.mk 170 490 (.cmdParam 0x03 0x00)).toPort = ⟨170, 490, 3, 1, 0x0300⟩ := by decide

/-- Rule R55: `start` sampled high asks for a session start, not for a tick. -/
theorem test_start_port :
    (InPorts.mk true 5000000#32 100 false).act = .sessionStart 5000000 100 ∧
    (InPorts.mk false 5000000#32 100 true).act = .sample true := by decide

/-! ## Witnesses for the hypotheses of the statements -/

theorem witness_OpcodeTableAsSpecified :
    0x4E#8 ∉ [0x00#8, 0xFF#8, 0x41#8, 0x42#8, 0x43#8, 0x40#8, 0x54#8] := by decide

theorem witness_DecodeInvertsEncode :
    decode (encode (.status 0xFF 0x00) ++ [0x12#8]) = .command (.status 0xFF 0x00) := by decide

/-- Both ends of the axis range, on two records that the port shows alike. -/
theorem witness_PortTellsRecordsApart :
    let r : Record := ⟨855, 1175, .stick (-128) 127⟩
    (∀ p ∈ [r.payload, r.payload], ∀ x y, p = .stick x y ∨ p = .cstick x y →
      (-128 ≤ x ∧ x ≤ 127) ∧ (-128 ≤ y ∧ y ≤ 127)) ∧ r.toPort = r.toPort := by
  refine ⟨?_, rfl⟩
  intro p hp x y h
  simp only [List.mem_cons, List.not_mem_nil, or_false, or_self] at hp
  subst hp
  rcases h with h | h
  · cases h; decide
  · cases h

theorem witness_SessionStartWritesEveryRegister :
    (inCell 6 5 [.sessionStart 0 7, .sample true]).host = .sessionStart 0 7 :: [.sample true] := rfl

theorem witness_ResetIsASessionStart : State.reset.host = [] := rfl

theorem witness_LowRateIsConfigError : 1999999 < 2000000 ∧ ¬ 2000000 < 2000000 := by decide

theorem witness_BorderlineRateWarns :
    2000000 ≤ 2000000 ∧ 2000000 ≤ 4999999 ∧ 2000000 ≤ 5000000 := by decide

theorem witness_FatalSessionIgnoresSamples :
    let s := { sessionStart 1999999 100 State.reset with host := [.sample true, .sample false] }
    s.started = true ∧ s.fatal = true ∧
    s.host = [true, false].map HostAct.sample ++ [] := by decide

theorem witness_FatalSessionIgnoresSamples_leaves :
    let s := { sessionStart 1999999 100 State.reset with host := [.sessionStart 2000000 0] }
    s.started = true ∧ s.fatal = true ∧ look (·.fatal) (step s) = some false := by decide

theorem witness_SessionsDoNotLeak :
    (inCell 6 5 [.sessionStart 5000000 100, .sample true]).host =
      .sessionStart 5000000 100 :: [.sample true] ∧
    (idleLine [.sessionStart 5000000 100, .sample true]).host =
      .sessionStart 5000000 100 :: [.sample true] := by decide

theorem witness_StepStopsOnlyBeforeSession :
    let s := { State.reset with started := false, host := [.sample true] }
    s.started = false ∧ s.SampleNext true [] := by decide

theorem witness_StepStopsOnlyBeforeSession_next :
    (idleLine [.sample true]).started = true ∧
    ∀ d acts, ¬ State.SampleNext d acts { State.reset with started := false } := by
  refine ⟨rfl, ?_⟩
  intro d acts h
  cases h

theorem witness_SilentHostChangesNothing : State.reset.host = [] := rfl

/-- A decoding session with a sample to come: for the statements about any such tick. -/
theorem witness_sample :
    let s := idleLine [.sample false, .sample true]
    s.Decoding ∧ s.SampleNext false [.sample true] ∧ (∃ t, step s = .next t) := by
  refine ⟨by decide, by decide, _, rfl⟩

theorem witness_SamplesKeepTheSession :
    (idleLine [.sample true]).SampleNext true [] ∧ ∃ t, step (idleLine [.sample true]) = .next t :=
  ⟨by decide, _, rfl⟩

theorem witness_TickCountsOneSample :
    (idleLine [.sample true]).Decoding ∧ (idleLine [.sample true]).SampleNext true [] := by decide

/-- The last cell of a STATUS command's third byte, closed by a falling edge at the shortest high
phase of a 1, with the opcode and the first parameter byte queued. -/
theorem witness_StepRunsDecodedCommand :
    let s := { inCell 6 6 [.sample false] with
      byteq := bytesAt10 [0x40, 0x03]
      bitq := sevenBits [true, false, false, false, false, false, false] }
    s.Decoding ∧ s.cph = .seekEvent ∧ s.prevValid = true ∧ s.prev = true ∧ s.ph = .initial ∧
    s.bitq.map (·.val) = [true, false, false, false, false, false, false] ∧
    s.bitq.length = 7 ∧
    0x81#8 = packByte true false false false false false false true ∧
    decode (queuedBytes s ++ [0x81#8]) = .command (.status 0x03 0x81) ∧
    s.SampleNext false [] ∧ true = bitValue (s.sidx - s.rise) s.low := by decide

/-- The same cell closed by idle, at the idle point. -/
theorem witness_StepRunsDecodedCommand_idle :
    let s := { inCell 6 24 [.sample true] with
      bitq := sevenBits [false, true, false, false, false, false, false] }
    s.Decoding ∧ s.cph = .seekEvent ∧ s.prevValid = true ∧ s.prev = true ∧ s.ph = .initial ∧
    s.bitq.length = 7 ∧
    0x41#8 = packByte false true false false false false false true ∧
    decode (queuedBytes s ++ [0x41#8]) = .command .origin ∧
    s.SampleNext true [] ∧ 4 * s.low ≤ s.sidx - s.rise := by decide

theorem witness_FetchWordRunsItsCommand :
    decodeTableWord 8 0x00 = some .probe ∧ decodeTableWord 24 0xFF0354 = some (.kbd 0x03 0xFF) := by
  decide

theorem witness_EdgeDetection :
    State.reset.prevValid = false ∧ (idleLine []).prevValid = true ∧ (idleLine []).prev = true := by
  decide

theorem witness_FallingEdgeOpensCell : (idleLine []).cph = .seekFall ∧ Edge.rising ≠ .falling := by
  decide

theorem witness_RisingEdgeMeasuresLow :
    ({ idleLine [] with cph := .seekRise } : State).cph = .seekRise := rfl

/-- A high phase one sample short of the low phase, and a gap of one more than `GAP`. -/
theorem witness_FallingEdgeClassifiesCell :
    let s := inCell 102 101 [.sample false]
    s.Decoding ∧ s.cph = .seekEvent ∧ s.prevValid = true ∧ s.prev = true ∧ s.SampleNext false [] ∧
    s.sidx - s.rise < s.low ∧ s.riseValid = true ∧ s.gap < s.sidx - s.rise := by decide

theorem witness_IdleClosesCell :
    let s := inCell 6 24 [.sample true]
    s.Decoding ∧ s.cph = .seekEvent ∧ s.edge true ≠ .falling ∧ s.SampleNext true [] ∧
    4 * s.low ≤ s.sidx - s.rise := by decide

theorem witness_IdleClosesCell_open :
    let s := inCell 6 23 [.sample true]
    s.Decoding ∧ s.cph = .seekEvent ∧ s.edge true ≠ .falling ∧ s.SampleNext true [] ∧
    s.sidx - s.rise < 4 * s.low := by decide

theorem witness_FallingEdgeBeatsIdle :
    let s := inCell 6 24 [.sample false]
    s.Decoding ∧ s.cph = .seekEvent ∧ s.prevValid = true ∧ s.prev = true ∧ s.SampleNext false [] ∧
    s.sidx = s.rise + 4 * s.low := by decide

/-- One state for each row of rule R141: opening, rising, closing, idle. -/
theorem witness_ClassifierTransitionTable :
    (let s := idleLine [.sample false];
      s.Decoding ∧ s.SampleNext false [] ∧ s.cph = .seekFall ∧ s.edge false = .falling) ∧
    (let s := { idleLine [.sample true] with cph := .seekRise, prev := false };
      s.Decoding ∧ s.SampleNext true [] ∧ s.cph = .seekRise ∧ s.edge true = .rising) ∧
    (let s := inCell 102 101 [.sample false];
      s.Decoding ∧ s.SampleNext false [] ∧ s.cph = .seekEvent ∧ s.edge false = .falling ∧
      s.riseValid = true ∧ s.gap < s.sidx - s.rise) ∧
    (let s := inCell 6 24 [.sample true];
      s.Decoding ∧ s.SampleNext true [] ∧ s.cph = .seekEvent ∧ s.edge true ≠ .falling ∧
      4 * s.low ≤ s.sidx - s.rise) := by decide

theorem witness_ClassifierTransitionTable_next :
    (∃ t, step (idleLine [.sample false]) = .next t) ∧
    (∃ t, step (inCell 6 24 [.sample true]) = .next t) := ⟨⟨_, rfl⟩, ⟨_, rfl⟩⟩

/-- The longest high phase a falling edge can close. -/
theorem witness_CellIsClassifiedByItsOwnRatio :
    let c : Cell := ⟨6, 24⟩
    let s := idleLine ((cellSamples c ++ [false]).map HostAct.sample)
    s.Decoding ∧ s.cph = .seekFall ∧ s.prevValid = true ∧ s.prev = true ∧ c.wf = true ∧
    s.host = (cellSamples c ++ [false]).map HostAct.sample ++ [] := by decide

theorem witness_CellClosedByIdleIsOne :
    let s := idleLine ((List.replicate 1 false ++ List.replicate 5 true).map HostAct.sample)
    s.Decoding ∧ s.cph = .seekFall ∧ s.prevValid = true ∧ s.prev = true ∧ 1 ≤ 1 ∧
    s.host =
      (List.replicate 1 false ++ List.replicate (4 * 1 + 1) true).map HostAct.sample ++ [] := by
  decide

theorem witness_ClassifierIsSelfClocking : 1 ≤ 1 := by decide

theorem witness_AcceptBitQueuesOrStops :
    (let s := { State.reset with ph := .awaitCommandStop };
      s.ph = .awaitCommandStop ∨ s.ph = .awaitResponseStop) ∧
    (let s := { State.reset with bitq := sevenBits [true, true, true, true, true, true] };
      s.ph = .initial ∧ s.bitq.length + 1 < 8) ∧
    (let s := { State.reset with bitq := sevenBits [true, true, true, true, true, true, true] };
      s.ph = .initial ∧ 8 ≤ s.bitq.length + 1) := by decide

theorem witness_AssemblyIsMostSignificantFirst :
    ({ State.reset with bitq := List.replicate 8 ⟨true, 10, 30⟩ } : State).bitq =
      ⟨true, 10, 30⟩ :: ⟨true, 10, 30⟩ :: ⟨true, 10, 30⟩ :: ⟨true, 10, 30⟩ :: ⟨true, 10, 30⟩ ::
        ⟨true, 10, 30⟩ :: ⟨true, 10, 30⟩ :: ⟨true, 10, 30⟩ :: [] := rfl

theorem witness_ProbeAndResetComplete : (queued [0x00]).byteq = ⟨0x00, 10, 170⟩ :: [] := rfl

theorem witness_TenByteCommandsComplete : (queued [0x41]).byteq = ⟨0x41, 10, 170⟩ :: [] := rfl

theorem witness_StatusCompletes :
    (queued [0x40, 0x03, 0x00]).byteq =
      ⟨0x40, 10, 170⟩ :: ⟨0x03, 170, 330⟩ :: ⟨0x00, 330, 490⟩ :: [] := rfl

theorem witness_KeyboardCompletes :
    (queued [0x54, 0x03, 0x00]).byteq =
      ⟨0x54, 10, 170⟩ :: ⟨0x03, 170, 330⟩ :: ⟨0x00, 330, 490⟩ :: [] := rfl

theorem witness_ShortCommandWaits :
    (queued [0x40, 0x03]).byteq.length < (Instr.status 0x03 0x00).opcode.cmdLen ∧
    (queued []).byteq.length < Instr.probe.opcode.cmdLen ∧
    (queued [0x54, 0x03]).byteq = ⟨0x54, 10, 170⟩ :: [⟨0x03, 170, 330⟩] := by decide

theorem witness_UnknownOpcodeIsDiscarded :
    (queued [0x4E]).byteq = ⟨0x4E, 10, 170⟩ :: [] ∧
    0x4E#8 ∉ [0x00#8, 0xFF#8, 0x41#8, 0x42#8, 0x43#8, 0x40#8, 0x54#8] := by decide

/-- PROBE at timing T20. -/
theorem witness_WellTimedCommandIsRecognised :
    let cells := (encodeBits .probe).map t20
    let s := idleLine ((cellsSamples cells ++ [false]).map HostAct.sample)
    s.Decoding ∧ s.ph = .initial ∧ s.bitq = [] ∧ s.byteq = [] ∧ s.cph = .seekFall ∧
    s.prevValid = true ∧ s.prev = true ∧ (∀ c ∈ cells, c.wf = true ∧ c.high ≤ s.gap) ∧
    cells.map cellBit = encodeBits .probe ∧
    s.host = (cellsSamples cells ++ [false]).map HostAct.sample ++ [] := by
  refine ⟨by decide, rfl, rfl, rfl, rfl, rfl, rfl, by decide, by decide, ?_⟩
  exact (List.append_nil _).symm

/-- A stop phase: for the statements about the two stops and the ignored 0. -/
theorem witness_CommandStopAccepted :
    ({ State.reset with ph := .awaitCommandStop } : State).ph = .awaitCommandStop := rfl
theorem witness_ResponseStopAccepted :
    ({ State.reset with ph := .awaitResponseStop } : State).ph = .awaitResponseStop := rfl
theorem witness_StopSlotZeroIsIgnored :
    let s := { State.reset with ph := .awaitResponseStop }
    s.ph = .awaitCommandStop ∨ s.ph = .awaitResponseStop := by decide

theorem witness_ResponseIsDecodedAtItsLength :
    (let s := { response 0x00 [0x09, 0x00] with expLen := 3 };
      s.ph = .awaitResponseBytes ∧ s.byteq.length < s.expLen) ∧
    (let s := response 0x00 [0x09, 0x00, 0x03];
      s.ph = .awaitResponseBytes ∧ s.expLen ≤ s.byteq.length) := by decide

/-- Rule R192's example, the last sample without a timeout and the first with it. -/
theorem witness_TimeoutAbortsResponse :
    2000000 ≤ (response 0x00 []).rate ∧
    (response 0x00 []).ph = .awaitResponseBytes ∧
    ¬ (response 0x00 []).rate ≤ 1000 * (5009 - (response 0x00 []).tref) ∧
    (response 0x00 []).rate ≤ 1000 * (5010 - (response 0x00 []).tref) := by decide

theorem witness_NoResponseOutlivesItsTimeout :
    let s := { response 0x00 [] with host := [.sample true], sidx := 200 }
    s.Decoding ∧ s.SampleNext true [] ∧
    look (·.ph) (step s) = some .awaitResponseBytes := by decide

/-- The third byte of a PROBE response completes at the tick of the timeout (vector V7). -/
theorem witness_BitIsProcessedBeforeTimeout :
    let s := { inCell 6 6 [.sample false] with
      ph := .awaitResponseBytes, cmd := ⟨0x00#8, 10⟩, expLen := 3, tref := 10
      byteq := byteEntriesFrom 4530 [0x09, 0x00]
      bitq := sevenBits [false, false, false, false, false, false, true]
      fall := 4990, rise := 4996, sidx := 5010 }
    s.Decoding ∧ s.cph = .seekEvent ∧ s.prevValid = true ∧ s.prev = true ∧ s.SampleNext false [] ∧
    s.ph = .awaitResponseBytes ∧ s.bitq.length = 7 ∧ s.expLen ≤ s.byteq.length + 1 ∧
    s.rate ≤ 1000 * (s.sidx - s.tref) := by decide

/-- A command stop accepted when the millisecond is just up. -/
theorem witness_BitIsProcessedBeforeTimeout_stop :
    let s := { inCell 6 6 [.sample false] with
      ph := .awaitCommandStop, cmd := ⟨0x40#8, 10⟩, expLen := 8
      fall := 4998, rise := 5004, sidx := 5010 }
    s.Decoding ∧ s.cph = .seekEvent ∧ s.prevValid = true ∧ s.prev = true ∧ s.SampleNext false [] ∧
    s.ph = .awaitCommandStop ∧ s.low ≤ s.sidx - s.rise ∧
    s.rate ≤ 1000 * (s.sidx - s.cmd.first) := by decide

/-- A step from each phase that leaves it: by a command, a command stop, a response, a response stop. -/
theorem witness_PhaseTransitions :
    (∃ t, step (State.reset.withFetchWord 8 0x00) = .next t ∧ t.ph = .awaitCommandStop) ∧
    (∃ t, step { inCell 6 6 [.sample false] with ph := .awaitCommandStop } = .next t ∧
      t.ph = .awaitResponseBytes) ∧
    (∃ t, step { response 0x00 [] with host := [.sample true], sidx := 5010 } = .next t ∧
      t.ph = .initial) ∧
    (∃ t, step { inCell 6 6 [.sample false] with ph := .awaitResponseStop } = .next t ∧
      t.ph = .initial) :=
  ⟨⟨_, rfl, by decide⟩, ⟨_, rfl, by decide⟩, ⟨_, rfl, by decide⟩, ⟨_, rfl, by decide⟩⟩

/-- The latch taken by a command, and the timeout reference by a command stop. -/
theorem witness_OpcodeLatchHoldsThroughFrame :
    look (fun t => decide (t.cmd ≠ State.reset.cmd)) (step (State.reset.withFetchWord 8 0x41)) =
      some true ∧
    look (fun t => decide (t.tref ≠ 0))
        (step { inCell 6 6 [.sample false] with ph := .awaitCommandStop, cmd := ⟨0x41#8, 7⟩ }) =
      some true := by decide

theorem witness_IdentifyResponseDecoded :
    let s := response 0xFF [0x29, 0x00, 0x00]
    (s.cmd.op = 0x00#8 ∨ s.cmd.op = 0xFF#8) ∧
    s.byteq = ⟨0x29, 215, 375⟩ :: ⟨0x00, 375, 535⟩ :: ⟨0x00, 535, 695⟩ :: [] ∧
    (0x29#8).toNat / 8 % 4 = 1 := by decide

theorem witness_StatusResponseDecoded :
    let s := response 0x40 [0x01, 0x02, 0x80, 0x80, 0x80, 0x80, 0x00, 0x00]
    s.cmd.op = 0x40#8 ∧ s.expLen = 8 ∧
    s.byteq.map (·.val) = [0x01, 0x02, 0x80, 0x80, 0x80, 0x80, 0x00, 0x00] := by decide

theorem witness_OriginResponsesDecoded :
    let s := response 0x41 [0x1F, 0x7F, 0x00, 0xFF, 0x7F, 0x81, 0x10, 0xFF, 0x02, 0x03]
    (s.cmd.op = 0x41#8 ∨ s.cmd.op = 0x42#8 ∨ s.cmd.op = 0x43#8) ∧ s.expLen = 10 ∧
    s.byteq.map (·.val) = [0x1F, 0x7F, 0x00, 0xFF, 0x7F, 0x81, 0x10, 0xFF, 0x02, 0x03] := by decide

theorem witness_KeyboardResponseNotDecoded :
    (response 0x54 [1, 2, 3, 4, 5, 6, 7, 8]).cmd.op = 0x54#8 := rfl

/-- The third byte of a PROBE response, poll mode 3. -/
theorem witness_PollModeWrittenOnlyByIdentify :
    let s := { inCell 6 6 [.sample false] with
      ph := .awaitResponseBytes, cmd := ⟨0x00#8, 10⟩, expLen := 3, tref := 10
      byteq := byteEntriesFrom 215 [0x09, 0x00]
      bitq := sevenBits [false, false, false, false, false, false, true] }
    s.SampleNext false [] ∧
    look (fun t => (t.pollMode, t.pollModeValid, t.ph)) (step s) =
      some (3, true, .awaitResponseStop) ∧
    (s.pollMode, s.pollModeValid) = (0, false) := by decide

theorem witness_RecordsOfATickInOrder :
    (inCell 6 6 [.sample false]).SampleNext false [] ∧
    ∃ t, step (inCell 6 6 [.sample false]) = .next t := ⟨by decide, _, rfl⟩

/-- A sound state in the middle of a cell. -/
theorem witness_RecordsEndAtTheirTick :
    (inCell 6 6 [.sample false]).Sound ∧ (inCell 6 6 [.sample false]).SampleNext false [] ∧
    ∃ t, step (inCell 6 6 [.sample false]) = .next t := ⟨by decide, by decide, _, rfl⟩

theorem witness_reset_sound : State.reset.Sound := by decide

theorem witness_QueuesStaySound :
    (inCell 6 6 [.sample false]).QueuesSound ∧
    ∃ t, step (inCell 6 6 [.sample false]) = .next t := ⟨by decide, _, rfl⟩

theorem witness_EveryStepKeepsSoundness :
    (inCell 6 24 [.sample true]).Sound ∧
    ∃ t, step (inCell 6 24 [.sample true]) = .next t := ⟨by decide, _, rfl⟩

end Sys2Proof.Tests
end

section
/-! PROOFS. The statements of `00_scope.md`. -/

namespace Sys2Proof.Machine

/-- Settles O13: the empty host list is `step`'s waiting case (log entry 1). -/
theorem silentHostChangesNothing : Obligations.SilentHostChangesNothing :=
  fun _ hsilent => step_of_silent hsilent

end Sys2Proof.Machine
end

section
/-! PROOFS. What a sample and a step can do to the state, packaged for the invariants. -/

namespace Sys2Proof.Machine

/-! ## One step -/

/-- All a sample can do: a FATAL session drops it, a decoding one runs the classifier's part and the
end of the tick (rules R243, R260). -/
theorem step_sample_cases {s t : State} {d : Bool} {acts : List HostAct} (hn : s.SampleNext d acts)
    (h : step s = .next t) :
    t = { s with host := acts } ∨
      (s.fatal = false ∧ ∃ u, t = finishTick d s.sidx u ∧
        ClassifyEffect (s.edge d) { s with host := acts } u) := by
  rcases Bool.eq_false_or_eq_true s.started with hs | hs
  · rcases Bool.eq_false_or_eq_true s.fatal with hf | hf
    · rw [step_of_fatal hs hf hn] at h
      cases h
      exact .inl rfl
    · obtain ⟨u, hu, hc⟩ := step_of_decoding hs hf hn
      rw [hu] at h
      cases h
      exact .inr ⟨hf, u, rfl, hc⟩
  · rw [step_before_session hn hs] at h
    cases h

/-- An invariant that does not look at the host's list holds again after every step, once every
session start establishes it and every decoding tick keeps it. -/
theorem step_preserves {P : State → Prop} (hhost : ∀ s acts, P s → P { s with host := acts })
    (hstart : ∀ rate gap s, P (sessionStart rate gap s))
    (htick : ∀ s u d, s.fatal = false → P s → ClassifyEffect (s.edge d) s u →
      P (finishTick d s.sidx u))
    {s t : State} (hs : P s) (h : step s = .next t) : P t := by
  cases hh : s.host with
  | nil =>
    rw [step_of_silent hh] at h
    cases h
    exact hs
  | cons act acts =>
    cases act with
    | sessionStart rate gap =>
      rw [step_of_sessionStart hh] at h
      cases h
      exact hstart rate gap _
    | sample d =>
      rcases step_sample_cases hh h with rfl | ⟨hf, u, rfl, hc⟩
      · exact hhost s acts hs
      · exact htick { s with host := acts } u d hf (hhost s acts hs) hc

/-! ## The frame's registers across the classifier -/

/-- The frame's registers, `BYTEQ` and the output stream are the same in `s` and `t`, and so is
`BITQ` unless it was discarded. -/
structure SameFrame (s t : State) : Prop where
  ph            : t.ph = s.ph
  cmd           : t.cmd = s.cmd
  expLen        : t.expLen = s.expLen
  tref          : t.tref = s.tref
  pollMode      : t.pollMode = s.pollMode
  pollModeValid : t.pollModeValid = s.pollModeValid
  byteq         : t.byteq = s.byteq
  out           : t.out = s.out
  bitq          : t.bitq = s.bitq ∨ t.bitq = []

/-- Opening a cell touches the frame only by the desync discard (rule R136). -/
theorem openCell_sameFrame (n : Nat) (s : State) : SameFrame s (openCell n s) := by
  constructor
  case bitq => rcases desyncCheck_cases n s with ⟨_, h⟩ | ⟨_, h⟩ <;> simp [openCell, h]
  all_goals simp

/-- The classifier reaches the frame through the bit it classifies, and in no other way. -/
theorem ClassifyEffect.frame {e : Edge} {s u : State} (h : ClassifyEffect e s u) :
    SameFrame s u ∨ ∃ b t, BitEffect b s.fall s.sidx s t ∧ SameFrame t u := by
  cases h with
  | unchanged _ => exact .inl ⟨rfl, rfl, rfl, rfl, rfl, rfl, rfl, rfl, .inl rfl⟩
  | opened _ _ => exact .inl (openCell_sameFrame _ _)
  | rose _ _ => exact .inl ⟨rfl, rfl, rfl, rfl, rfl, rfl, rfl, rfl, .inl rfl⟩
  | closedByFall _ _ ht => exact .inr ⟨_, _, ht, openCell_sameFrame _ _⟩
  | closedByIdle _ _ _ ht =>
    exact .inr ⟨_, _, ht, rfl, rfl, rfl, rfl, rfl, rfl, rfl, rfl, .inl rfl⟩

/-- A response decoder leaves the queues and the latches alone (rules R72, R226). -/
@[simp] theorem decodeResponse_frame (s : State) :
    (decodeResponse s).bitq = s.bitq ∧ (decodeResponse s).byteq = s.byteq ∧
      (decodeResponse s).cmd = s.cmd ∧ (decodeResponse s).expLen = s.expLen ∧
      (decodeResponse s).tref = s.tref := by
  rcases decodeResponse_cases s with ⟨rs, _, _, h⟩ | ⟨e, u, _, ⟨rs, _, _, hu⟩, _, h⟩
  · simp [h]
  · simp [h, hu]

/-- A phase other than AWAIT_RESPONSE_BYTES outlasts the end of the tick. -/
theorem finishTick_ph_of_ne {d : Bool} {n : Nat} {u : State} (h : u.ph ≠ .awaitResponseBytes) :
    (finishTick d n u).ph = u.ph := by
  rw [finishTick_ph, timeoutCheck_of_ne h]

end Sys2Proof.Machine
end

section
/-! PROOFS. The statements of `10_state.md` about single registers and about the records of a
sample. -/

namespace Sys2Proof.Machine

/-! ## The session's registers -/

/-- Settles O14: neither branch of a sample writes a session register. -/
theorem samplesKeepTheSession : Obligations.SamplesKeepTheSession := by
  intro s t d acts hn h
  rcases step_sample_cases hn h with rfl | ⟨_, u, rfl, hc⟩
  · exact ⟨rfl, rfl, rfl, rfl, rfl⟩
  · obtain ⟨_, _, _, hfatal, hrate, hgap, hstarted, hhost⟩ := hc.session
    simp [hfatal, hrate, hgap, hstarted, hhost]

/-! ## The opcode latch -/

/-- `CMD` and `EXPLEN` are the same in `s` and `t`, or a command was completed between them (rules
R36, R37). -/
def LatchStep (s t : State) : Prop :=
  (t.cmd = s.cmd ∧ t.expLen = s.expLen) ∨ (s.ph = .initial ∧ t.ph = .awaitCommandStop)

theorem ByteEffect.latch {s t : State} (h : ByteEffect s t) : LatchStep s t := by
  cases h with
  | completed i hph _ _ => exact .inr ⟨hph, rfl⟩
  | decoded _ _ => exact .inl (by simp)
  | _ => exact .inl ⟨rfl, rfl⟩

/-- No byte writes `TREF` (rule R38). -/
theorem ByteEffect.tref {s t : State} (h : ByteEffect s t) : t.tref = s.tref := by
  cases h with
  | decoded _ _ => simp
  | _ => rfl

theorem BitEffect.latch {b : Bool} {st fi : Nat} {s t : State} (h : BitEffect b st fi s t) :
    LatchStep s t := by
  cases h with
  | byte _ _ ht => exact ht.latch
  | _ => exact .inl ⟨rfl, rfl⟩

/-- A bit writes `TREF` only by accepting the command stop (rule R38). -/
theorem BitEffect.tref {b : Bool} {st fi : Nat} {s t : State} (h : BitEffect b st fi s t) :
    t.tref = s.tref ∨ (s.ph = .awaitCommandStop ∧ t.tref = s.cmd.first) := by
  cases h with
  | commandStop hph _ => exact .inr ⟨hph, rfl⟩
  | byte _ _ ht => exact .inl ht.tref
  | _ => exact .inl rfl

/-- Settles O48: only a classified bit reaches the latches, and the end of the tick leaves
AWAIT_COMMAND_STOP alone. -/
theorem opcodeLatchHoldsThroughFrame : Obligations.OpcodeLatchHoldsThroughFrame := by
  intro s t d acts hn h
  rcases step_sample_cases hn h with rfl | ⟨_, u, rfl, hc⟩
  · simp
  rcases hc.frame with hsame | ⟨b, v, hbit, hsame⟩
  · simp [hsame.cmd, hsame.expLen, hsame.tref]
  constructor
  · intro hne
    rcases hbit.latch with ⟨hcmd, hlen⟩ | ⟨hph, hph'⟩
    · simp [hsame.cmd, hsame.expLen, hcmd, hlen] at hne
    · exact ⟨hph, by rw [finishTick_ph_of_ne] <;> simp [hsame.ph, hph']⟩
  · intro hne
    rw [finishTick_tref, hsame.tref] at hne ⊢
    exact hbit.tref.resolve_left hne

/-! ## The poll mode -/

/-- The poll mode is the same in `s` and `t`, or an identify response was completed between them
(rules R39, R220). -/
def PollModeStep (s t : State) : Prop :=
  (t.pollMode = s.pollMode ∧ t.pollModeValid = s.pollModeValid) ∨
    (s.ph = .awaitResponseBytes ∧ t.ph = .awaitResponseStop ∧
      (s.cmd.op = 0x00#8 ∨ s.cmd.op = 0xFF#8) ∧ t.pollModeValid = true)

theorem ByteEffect.pollMode {s t : State} (h : ByteEffect s t) : PollModeStep s t := by
  cases h with
  | decoded hph _ =>
    rcases decodeResponse_cases s with ⟨rs, _, _, h⟩ | ⟨e, u, _, _, hop, h⟩
    · exact .inl (by simp [h])
    · exact .inr ⟨hph, rfl, hop, by simp [h]⟩
  | _ => exact .inl ⟨rfl, rfl⟩

theorem BitEffect.pollMode {b : Bool} {st fi : Nat} {s t : State} (h : BitEffect b st fi s t) :
    PollModeStep s t := by
  cases h with
  | byte _ _ ht => exact ht.pollMode
  | _ => exact .inl ⟨rfl, rfl⟩

/-- Settles O55: only a classified bit reaches the poll mode, and the end of the tick leaves
AWAIT_RESPONSE_STOP alone. -/
theorem pollModeWrittenOnlyByIdentify : Obligations.PollModeWrittenOnlyByIdentify := by
  intro s t d acts hn h hne
  rcases step_sample_cases hn h with rfl | ⟨_, u, rfl, hc⟩
  · simp at hne
  rcases hc.frame with hsame | ⟨b, v, hbit, hsame⟩
  · simp [hsame.pollMode, hsame.pollModeValid] at hne
  rcases hbit.pollMode with ⟨hmode, hvalid⟩ | ⟨hph, hph', hop, hvalid⟩
  · simp [hsame.pollMode, hsame.pollModeValid, hmode, hvalid] at hne
  · exact ⟨hph, by rw [finishTick_ph_of_ne] <;> simp [hsame.ph, hph'], hop,
      by simp [hsame.pollModeValid, hvalid]⟩

/-! ## The records of a sample -/

/-- The categories one sample can append, in the order of the pipeline (rule R74). -/
def TickCategories (cs : List Category) : Prop :=
  cs = [] ∨ cs = [.bit] ∨ cs = [.bit, .stopBit] ∨
    (∃ n, n ≤ 2 ∧ cs = .bit :: .byte :: List.replicate n .command) ∨
    (∃ n, n ≤ 6 ∧ cs = .bit :: .byte :: List.replicate n .responseField)

/-- One sample appends at most eight records (rule R55). -/
theorem TickCategories.length_le {cs : List Category} (h : TickCategories cs) : cs.length ≤ 8 := by
  rcases h with rfl | rfl | rfl | ⟨n, hn, rfl⟩ | ⟨n, hn, rfl⟩ <;> simp <;> omega

/-- Records of one category have a constant list of categories. -/
theorem map_category_eq_replicate {rs : List Record} {c : Category}
    (h : ∀ r ∈ rs, r.payload.category = c) :
    rs.map (fun r => r.payload.category) = List.replicate rs.length c := by
  simpa [List.eq_replicate_iff] using h

/-- A bit appends its own record, then that of the stop, or that of the byte and what the byte
caused. -/
theorem BitEffect.categories {b : Bool} {st fi : Nat} {s t : State} (h : BitEffect b st fi s t) :
    ∃ rs, t.out = s.out ++ rs ∧ TickCategories (rs.map fun r => r.payload.category) := by
  cases h with
  | stopZero _ _ => exact ⟨[_], rfl, .inr (.inl rfl)⟩
  | queued _ _ => exact ⟨[_], rfl, .inr (.inl rfl)⟩
  | commandStop _ _ =>
    exact ⟨[_, _], List.append_assoc s.out [_] [_], .inr (.inr (.inl rfl))⟩
  | responseStop _ _ =>
    exact ⟨[_, _], List.append_assoc s.out [_] [_], .inr (.inr (.inl rfl))⟩
  | @byte b0 b1 b2 b3 b4 b5 b6 b7 _ _ _ _ ht =>
    obtain ⟨rs, hout, hrs⟩ := ht.out
    refine ⟨⟨st, fi, .bit b⟩ :: ⟨b0.start, b7.finish, .byte (packByte b0.val b1.val b2.val b3.val
      b4.val b5.val b6.val b7.val)⟩ :: rs, by rw [hout]; simp, ?_⟩
    rcases hrs with ⟨hl, hcat⟩ | ⟨hl, hcat⟩
    · exact .inr (.inr (.inr (.inl ⟨_, hl, by
        rw [List.map_cons, List.map_cons, map_category_eq_replicate hcat]; rfl⟩)))
    · exact .inr (.inr (.inr (.inr ⟨_, hl, by
        rw [List.map_cons, List.map_cons, map_category_eq_replicate hcat]; rfl⟩)))

/-- Settles O56: a sample's records are those of the bit it classifies, if any. -/
theorem recordsOfATickInOrder : Obligations.RecordsOfATickInOrder := by
  intro s t d acts hn h
  obtain ⟨rs, hout, hcat⟩ : ∃ rs, t.out = s.out ++ rs ∧
      TickCategories (rs.map fun r => r.payload.category) := by
    rcases step_sample_cases hn h with rfl | ⟨_, u, rfl, hc⟩
    · exact ⟨[], by simp, .inl rfl⟩
    rcases hc.frame with hsame | ⟨b, v, hbit, hsame⟩
    · exact ⟨[], by simp [hsame.out], .inl rfl⟩
    · obtain ⟨rs, hout, hcat⟩ := hbit.categories
      exact ⟨rs, by rw [finishTick_out, hsame.out, hout], hcat⟩
  exact ⟨rs, hout, by simpa using hcat.length_le, hcat⟩

end Sys2Proof.Machine
end

section
/-! PROOFS. The queue and latch invariants of rule R48 (items 1, 2, 3, 6 and 7) through one step. -/

namespace Sys2Proof.Machine

/-! ## The invariant phase by phase -/

/-- `EXPLEN` is the response length of the opcode latched in `CMD` (rules R37, R94). -/
def State.Latched (s : State) : Prop :=
  (Opcode.ofByte s.cmd.op).map Opcode.respLen = some s.expLen

/-- A latched response length is positive and fits `BYTEQ` (rules R66, R94). -/
theorem State.Latched.bounds {s : State} (h : s.Latched) : 0 < s.expLen ∧ s.expLen ≤ 10 := by
  obtain ⟨o, _, ho⟩ := Option.map_eq_some_iff.1 h
  have := respLen_cases o
  omega

theorem queuesSound_initial {s : State} (hph : s.ph = .initial) (hbits : s.bitq.length ≤ 7)
    (hbytes : s.byteq.length ≤ 2) (hhead : ∀ e ∈ s.byteq.head?, e.val = 0x40#8 ∨ e.val = 0x54#8) :
    s.QueuesSound := by
  refine ⟨hbits, by omega, fun _ => hbytes, fun _ => hhead, ?_, ?_, ?_, ?_, ?_⟩ <;> simp [hph]

theorem queuesSound_awaitCommandStop {s : State} (hph : s.ph = .awaitCommandStop)
    (hbits : s.bitq = []) (hbytes : s.byteq = []) (hlatch : s.Latched) : s.QueuesSound := by
  refine ⟨?_, ?_, ?_, ?_, ?_, ?_, ?_, ?_, fun _ => hlatch⟩ <;> simp [hph, hbits, hbytes]

theorem queuesSound_awaitResponseBytes {s : State} (hph : s.ph = .awaitResponseBytes)
    (hbits : s.bitq.length ≤ 7) (hbytes : s.byteq.length < s.expLen) (hlatch : s.Latched) :
    s.QueuesSound := by
  have := hlatch.bounds
  refine ⟨hbits, by omega, ?_, ?_, ?_, fun _ => hbytes, ?_, ?_, fun _ => hlatch⟩ <;> simp [hph]

theorem queuesSound_awaitResponseStop {s : State} (hph : s.ph = .awaitResponseStop)
    (hbits : s.bitq = []) (hbytes : s.byteq.length = s.expLen) (hlatch : s.Latched) :
    s.QueuesSound := by
  have := hlatch.bounds
  refine ⟨by simp [hbits], by omega, ?_, ?_, ?_, ?_, fun _ => hbytes, fun _ => hbits,
    fun _ => hlatch⟩ <;> simp [hph]

section Elimination
variable {s : State} (h : s.QueuesSound)
include h

/-- In INITIAL either no byte waits, or those behind a three-byte opcode (rule R173). -/
theorem queuesSound_waiting (hph : s.ph = .initial) :
    s.byteq = [] ∨ ∃ e rest, s.byteq = e :: rest ∧ (e.val = 0x40#8 ∨ e.val = 0x54#8) := by
  obtain ⟨_, _, _, hhead, _⟩ := h
  cases hq : s.byteq with
  | nil => exact .inl rfl
  | cons e rest => exact .inr ⟨e, rest, rfl, hhead hph e (by simp [hq])⟩

theorem queuesSound_collecting (hph : s.ph = .awaitResponseBytes) : s.byteq.length < s.expLen := by
  obtain ⟨_, _, _, _, _, hbytes, _⟩ := h
  exact hbytes hph

theorem queuesSound_latched (hph : s.ph ≠ .initial) : s.Latched := by
  obtain ⟨_, _, _, _, _, _, _, _, hlatch⟩ := h
  exact hlatch hph

end Elimination

/-- Emptying both queues is sound where the phase is INITIAL. -/
theorem queuesSound_cleared {s : State} (hph : s.ph = .initial) (hbits : s.bitq = [])
    (hbytes : s.byteq = []) : s.QueuesSound :=
  queuesSound_initial hph (by simp [hbits]) (by simp [hbytes]) (by simp [hbytes])

/-! ## Each stage of a tick keeps it -/

/-- A discard of `BITQ` is all that can happen between the same frames, and it keeps the invariant. -/
theorem SameFrame.queuesSound {s t : State} (h : SameFrame s t) (hs : s.QueuesSound) :
    t.QueuesSound := by
  obtain ⟨hbits, hbytes, hwait, hhead, hstop, hcollect, hfull, hslot, hlatch⟩ := hs
  unfold State.QueuesSound
  rw [h.ph, h.cmd, h.expLen, h.byteq]
  refine ⟨?_, hbytes, hwait, hhead, hstop, hcollect, hfull, ?_, hlatch⟩ <;>
    rcases h.bitq with hb | hb <;> simp_all

/-- A byte has just been appended to `BYTEQ`, from all queued bits, and the frame state machine has
not looked at it yet: in INITIAL it is the only one or stands behind a three-byte opcode. -/
structure ByteArrived (s : State) : Prop where
  phase   : inStopSlot s = false
  bitq    : s.bitq = []
  head    : s.ph = .initial → ∀ e rest, s.byteq = e :: rest →
    rest = [] ∨ e.val = 0x40#8 ∨ e.val = 0x54#8
  room    : s.ph = .awaitResponseBytes → s.byteq.length ≤ s.expLen
  latched : s.ph ≠ .initial → s.Latched

theorem byteArrived_withByte {v : Byte} {st fi : Nat} {s : State} (hs : s.QueuesSound)
    (hslot : inStopSlot s = false) : ByteArrived (withByte v st fi [] s) where
  phase := hslot
  bitq := rfl
  head hph e rest hq := by
    rcases queuesSound_waiting hs hph with hnone | ⟨e', rest', hq', hop⟩
    · rw [pushByte_byteq, emit_byteq, hnone, List.nil_append, List.cons.injEq] at hq
      exact .inl hq.2.symm
    · rw [pushByte_byteq, emit_byteq, hq', List.cons_append, List.cons.injEq] at hq
      exact .inr (hq.1 ▸ hop)
  room hph := by simpa using queuesSound_collecting hs hph
  latched hph := (queuesSound_latched hs hph : s.Latched)

/-- What the frame state machine does with the byte restores the invariant (rules R171 to R174,
R190). -/
theorem ByteEffect.queuesSound {s t : State} (hs : ByteArrived s) (h : ByteEffect s t) :
    t.QueuesSound := by
  cases h with
  | waits hph hq hop hl =>
    exact queuesSound_initial hph (by simp [hs.bitq]) (by simp [hq]; omega)
      (by simpa [hq] using hop)
  | discarded hph hq hop =>
    have hrest := (hs.head hph _ _ hq).resolve_right (by
      rintro (h | h) <;> rw [h] at hop <;> exact absurd hop (by decide))
    exact queuesSound_cleared hph hs.bitq hrest
  | completed i _ _ _ =>
    exact queuesSound_awaitCommandStop rfl hs.bitq rfl (by simp [State.Latched, commandDone])
  | collected hph hl =>
    exact queuesSound_awaitResponseBytes hph (by simp [hs.bitq]) hl (hs.latched (by simp [hph]))
  | decoded hph hl =>
    have hroom := hs.room hph
    exact queuesSound_awaitResponseStop rfl (by simp [hs.bitq]) (by simp; omega)
      (by simpa [State.Latched] using hs.latched (by simp [hph]))
  | ignored hph => exact absurd (inStopSlot_iff.2 hph) (by simp [hs.phase])

/-- Seven queued bits and one more make a byte that leaves none behind (rule R162). -/
theorem no_bits_left {b : BitEntry} {q rest : List BitEntry} {b0 b1 b2 b3 b4 b5 b6 b7 : BitEntry}
    (hl : q.length ≤ 7) (hq : q ++ [b] = b0 :: b1 :: b2 :: b3 :: b4 :: b5 :: b6 :: b7 :: rest) :
    rest = [] := by
  have hlen := congrArg List.length hq
  simp only [List.length_append, List.length_cons, List.length_nil] at hlen
  exact List.eq_nil_of_length_eq_zero (by omega)

/-- A classified bit keeps the invariant, in every phase. -/
theorem BitEffect.queuesSound {b : Bool} {st fi : Nat} {s t : State} (h : BitEffect b st fi s t)
    (hs : s.QueuesSound) : t.QueuesSound := by
  cases h with
  | stopZero _ _ => exact hs
  | commandStop hph _ =>
    have hlatch := queuesSound_latched hs (by simp [hph])
    exact queuesSound_awaitResponseBytes rfl (Nat.zero_le 7) hlatch.bounds.1 hlatch
  | responseStop _ _ => exact queuesSound_cleared rfl rfl rfl
  | queued hslot hl =>
    obtain ⟨_, hbytes, hwait, hhead, hstop, hcollect, hfull, _, hlatch⟩ := hs
    exact ⟨by simpa using hl, hbytes, hwait, hhead, hstop, hcollect, hfull,
      fun hph => absurd ((inStopSlot_iff (s := s)).2 hph) (by simp [hslot]), hlatch⟩
  | byte hslot hq ht =>
    obtain rfl := no_bits_left hs.1 hq
    exact ht.queuesSound (byteArrived_withByte (s := withBit b st fi s) hs hslot)

/-- A timeout at the end of a tick keeps the invariant: it empties both queues in INITIAL (rule
R192). -/
theorem finishTick_queuesSound {d : Bool} {n : Nat} {s : State} (hs : s.QueuesSound) :
    (finishTick d n s).QueuesSound := by
  rcases timeoutCheck_cases n s with ⟨_, h⟩ | ⟨_, h⟩
  · exact queuesSound_cleared (by simp [h]) (by simp [h]) (by simp [h])
  · rw [finishTick, h]
    exact hs

theorem ClassifyEffect.queuesSound {e : Edge} {s u : State} (h : ClassifyEffect e s u)
    (hs : s.QueuesSound) : u.QueuesSound := by
  rcases h.frame with hsame | ⟨b, t, hbit, hsame⟩
  · exact hsame.queuesSound hs
  · exact hsame.queuesSound (hbit.queuesSound hs)

theorem sessionStart_queuesSound (rate gap : Nat) (s : State) :
    (sessionStart rate gap s).QueuesSound := by
  rw [sessionStart_eq]
  exact queuesSound_cleared rfl rfl rfl

/-- Settles O59, stage by stage of the tick. -/
theorem queuesStaySound : Obligations.QueuesStaySound := fun _ _ hs h =>
  step_preserves (P := State.QueuesSound) (fun _ _ h => h) sessionStart_queuesSound
    (fun _ _ _ _ hs hc => finishTick_queuesSound (hc.queuesSound hs)) hs h

end Sys2Proof.Machine
end

section
/-! PROOFS. The whole invariant of rule R48 through one step: spans and times, the cell in progress,
and the rate check. -/

namespace Sys2Proof.Machine

/-! ## Lists of spans -/

/-- Spans forward in time, one after another, and over by `n` (rule R48 item 5). -/
def SpansInOrder (n : Nat) (l : List (Nat × Nat)) : Prop :=
  (∀ p ∈ l, p.1 < p.2 ∧ p.2 ≤ n) ∧ l.Pairwise fun p q => p.2 ≤ q.1

namespace SpansInOrder
variable {m n : Nat} {l l' : List (Nat × Nat)} {p q : Nat × Nat}

theorem nil : SpansInOrder n [] := ⟨by simp, .nil⟩

theorem sublist (h : SpansInOrder n l) (hl : l'.Sublist l) : SpansInOrder n l' :=
  ⟨fun p hp => h.1 p (hl.subset hp), h.2.sublist hl⟩

theorem mono (h : SpansInOrder m l) (hmn : m ≤ n) : SpansInOrder n l :=
  ⟨fun p hp => ⟨(h.1 p hp).1, (h.1 p hp).2.trans hmn⟩, h.2⟩

/-- A new span goes to the end of the list where it starts at the horizon or later. -/
theorem append (h : SpansInOrder m l) (hm : m ≤ p.1) (hp : p.1 < p.2) :
    SpansInOrder p.2 (l ++ [p]) := by
  refine ⟨?_, List.pairwise_append.2 ⟨h.2, by simp, ?_⟩⟩
  · intro q hq
    rcases List.mem_append.1 hq with hq | hq
    · have := h.1 q hq
      omega
    · obtain rfl := List.mem_singleton.1 hq
      exact ⟨hp, le_rfl⟩
  · intro q hq r hr
    obtain rfl := List.mem_singleton.1 hr
    exact (h.1 q hq).2.trans hm

/-- The two last spans may be joined to one. -/
theorem join (h : SpansInOrder n (l ++ [p, q])) : SpansInOrder n (l ++ [(p.1, q.2)]) := by
  obtain ⟨hf, hpair⟩ := h
  obtain ⟨hl, hpq, hlp⟩ := List.pairwise_append.1 hpair
  have hp := hf p (by simp)
  have hq := hf q (by simp)
  have hle : p.2 ≤ q.1 := List.rel_of_pairwise_cons hpq (by simp)
  have hl' : SpansInOrder p.1 l :=
    ⟨fun r hr => ⟨(hf r (by simp [hr])).1, hlp r hr p (by simp)⟩, hl⟩
  exact (hl'.append (p := (p.1, q.2)) le_rfl (by simp; omega)).mono hq.2

/-- From the start of one span to the end of the same or a later one is a span too. -/
theorem between (h : SpansInOrder n l) {i j : Nat} (hij : i ≤ j) (hp : l[i]? = some p)
    (hq : l[j]? = some q) : p.1 < q.2 ∧ q.2 ≤ n := by
  have hp' := h.1 p (List.mem_of_getElem? hp)
  have hq' := h.1 q (List.mem_of_getElem? hq)
  rcases hij.eq_or_lt with rfl | hlt
  · obtain rfl : p = q := by simpa [hp] using hq
    exact hp'
  · obtain ⟨hi, rfl⟩ := List.getElem?_eq_some_iff.1 hp
    obtain ⟨hj, rfl⟩ := List.getElem?_eq_some_iff.1 hq
    have := List.pairwise_iff_getElem.1 h.2 i j hi hj hlt
    omega

end SpansInOrder

/-! ## Spans and times of a state -/

/-- The frame's part of rule R48 item 5: latched times and emitted spans are over by `n`, queued
spans by `m`. -/
structure State.FrameTimes (m n : Nat) (s : State) : Prop where
  tref   : s.tref ≤ n
  first  : s.cmd.first ≤ n
  queued : SpansInOrder m s.spans
  out    : ∀ r ∈ s.out, r.spanBy n

theorem timesSound_iff {s : State} :
    s.TimesSound ↔ s.fall ≤ s.sidx ∧ s.rise ≤ s.sidx ∧ s.FrameTimes s.horizon s.sidx := by
  constructor
  · rintro ⟨hfall, hrise, htref, hfirst, hspans, horder, hout⟩
    exact ⟨hfall, hrise, htref, hfirst, ⟨hspans, horder⟩, hout⟩
  · rintro ⟨hfall, hrise, htref, hfirst, ⟨hspans, horder⟩, hout⟩
    exact ⟨hfall, hrise, htref, hfirst, hspans, horder, hout⟩

/-- A record's span is over at every later time too. -/
theorem spanBy_mono {m n : Nat} {r : Record} (h : r.spanBy m) (hmn : m ≤ n) : r.spanBy n := by
  rcases h with h | ⟨hc, hf, hle⟩
  · exact .inl h
  · exact .inr ⟨hc, hf, hle.trans hmn⟩

namespace State.FrameTimes
variable {m m' n n' st fi : Nat} {s t : State}

theorem mono (h : s.FrameTimes m n) (hm : m ≤ m') (hn : n ≤ n') : s.FrameTimes m' n' where
  tref := h.tref.trans hn
  first := h.first.trans hn
  queued := h.queued.mono hm
  out r hr := spanBy_mono (h.out r hr) hn

/-- Emitting a record that is over by `n`. -/
theorem emit {p : Payload} (h : s.FrameTimes m n) (hp : p.category ≠ .warning) (hlt : st < fi)
    (hle : fi ≤ n) : (emit st fi p s).FrameTimes m n where
  tref := h.tref
  first := h.first
  queued := h.queued
  out r hr := by
    rcases List.mem_append.1 hr with hr | hr
    · exact h.out r hr
    · rw [List.mem_singleton.1 hr]
      exact .inr ⟨hp, hlt, hle⟩

/-- Dropping queued entries. -/
theorem dropQueued (h : s.FrameTimes m n) (htref : t.tref = s.tref) (hcmd : t.cmd = s.cmd)
    (hout : t.out = s.out) (hspans : t.spans.Sublist s.spans) : t.FrameTimes m n where
  tref := htref ▸ h.tref
  first := hcmd ▸ h.first
  queued := h.queued.sublist hspans
  out := hout ▸ h.out

end State.FrameTimes

/-! ## Each stage of a tick keeps them -/

/-- A record's span runs from the start of one byte of `q` to the end of the same or a later one
(rules R123, R174, R180). -/
def OverBytes (q : List ByteEntry) (r : Record) : Prop :=
  ∃ (i j : Nat) (a b : ByteEntry), i ≤ j ∧ q[i]? = some a ∧ q[j]? = some b ∧
    r.start = a.start ∧ r.finish = b.finish

theorem isField_iff {s : State} {r : Record} :
    IsField s r ↔ r.payload.category = .responseField ∧ OverBytes s.byteq r := Iff.rfl

/-- A span over queued bytes is forward in time and as early as theirs. -/
theorem OverBytes.span {m n : Nat} {s : State} {r : Record} (h : OverBytes s.byteq r)
    (hs : s.FrameTimes m n) : r.start < r.finish ∧ r.finish ≤ m := by
  obtain ⟨i, j, a, b, hij, ha, hb, hstart, hfinish⟩ := h
  rw [hstart, hfinish]
  exact (hs.queued.sublist (List.sublist_append_left _ _)).between
    (p := (a.start, a.finish)) (q := (b.start, b.finish)) hij (by simp [ha]) (by simp [hb])

theorem commandRecords_overBytes {i : Instr} {q : List ByteEntry} {r : Record}
    (h : r ∈ commandRecords i q) : OverBytes q r := by
  unfold commandRecords at h
  split at h <;> simp only [List.mem_cons, List.not_mem_nil, or_false] at h
  · rcases h with rfl | rfl
    · exact ⟨0, 0, _, _, le_rfl, rfl, rfl, rfl, rfl⟩
    · exact ⟨1, 2, _, _, by omega, rfl, rfl, rfl, rfl⟩
  · subst h
    exact ⟨0, 0, _, _, le_rfl, rfl, rfl, rfl, rfl⟩

/-- The records a byte causes are over queued bytes. -/
theorem ByteEffect.records {s t : State} (h : ByteEffect s t) :
    ∃ rs, t.out = s.out ++ rs ∧ ∀ r ∈ rs, r.payload.category ≠ .warning ∧ OverBytes s.byteq r := by
  cases h with
  | completed i _ _ _ =>
    exact ⟨_, rfl, fun r hr => ⟨by simp [commandRecords_category hr], commandRecords_overBytes hr⟩⟩
  | decoded _ _ =>
    rcases decodeResponse_cases s with ⟨rs, _, hr, h⟩ | ⟨e, u, _, ⟨rs, _, hr, hu⟩, _, h⟩
    · exact ⟨rs, by rw [h], fun r hm => (isField_iff.1 (hr r hm)).imp_left fun h => by simp [h]⟩
    · exact ⟨rs, by rw [h, hu], fun r hm => (isField_iff.1 (hr r hm)).imp_left fun h => by simp [h]⟩
  | _ => exact ⟨[], by simp, by simp⟩

/-- A byte leaves no span queued that was not. -/
theorem ByteEffect.spans {s t : State} (h : ByteEffect s t) : t.spans.Sublist s.spans := by
  cases h with
  | discarded _ hq _ => simp [State.spans, hq]
  | completed _ _ _ _ => exact List.sublist_append_right _ _
  | decoded _ _ => simp [State.spans]
  | _ => exact List.Sublist.refl _

/-- A byte writes `CMD.first` only with the start of a queued byte (rule R36). -/
theorem ByteEffect.first {s t : State} (h : ByteEffect s t) :
    t.cmd.first = s.cmd.first ∨ ∃ e ∈ s.byteq, t.cmd.first = e.start := by
  cases h with
  | completed i _ hq _ => exact .inr ⟨_, by simp [hq], rfl⟩
  | decoded _ _ => simp
  | _ => exact .inl rfl

theorem ByteEffect.frameTimes {n : Nat} {s t : State} (h : ByteEffect s t)
    (hs : s.FrameTimes n n) : t.FrameTimes n n where
  tref := h.tref ▸ hs.tref
  first := by
    rcases h.first with hf | ⟨e, he, hf⟩
    · rw [hf]
      exact hs.first
    · have := hs.queued.1 (e.start, e.finish)
        (List.mem_append_left _ (List.mem_map_of_mem he))
      omega
  queued := hs.queued.sublist h.spans
  out r hr := by
    obtain ⟨rs, hout, hrs⟩ := h.records
    rcases List.mem_append.1 (hout ▸ hr) with hr | hr
    · exact hs.out r hr
    · obtain ⟨hcat, hover⟩ := hrs r hr
      exact .inr ⟨hcat, hover.span hs⟩

/-- Assembling the eight queued bits to a byte keeps the times (rule R161). -/
theorem withByte_frameTimes {n : Nat} {v : Byte} {b0 b1 b2 b3 b4 b5 b6 b7 : BitEntry} {s : State}
    (hs : s.FrameTimes n n) (hq : s.bitq = [b0, b1, b2, b3, b4, b5, b6, b7]) :
    (withByte v b0.start b7.finish [] s).FrameTimes n n := by
  have hends : SpansInOrder n (s.byteq.map (fun e => (e.start, e.finish)) ++
      [(b0.start, b0.finish), (b7.start, b7.finish)]) := by
    refine hs.queued.sublist (List.Sublist.append_left ?_ _)
    simp [hq]
  have hspan := hends.join.1 (b0.start, b7.finish) (by simp)
  exact { tref := hs.tref, first := hs.first
          queued := by simpa [State.spans] using hends.join
          out := (hs.emit (p := .byte v) (by simp [Payload.category]) hspan.1 hspan.2).out }

/-- A bit that begins where the queued spans end keeps the times: what it queues or emits ends with
it. -/
theorem BitEffect.frameTimes {b : Bool} {st fi : Nat} {s t : State} (h : BitEffect b st fi s t)
    (hbits : s.bitq.length ≤ 7) (hlt : st < fi) (hs : s.FrameTimes st fi) : t.FrameTimes fi fi := by
  have hbit : (withBit b st fi s).FrameTimes st fi :=
    hs.emit (by simp [Payload.category]) hlt le_rfl
  have hpush : (pushBit ⟨b, st, fi⟩ (withBit b st fi s)).FrameTimes fi fi :=
    { tref := hs.tref, first := hs.first, out := hbit.out
      queued := by
        simpa [State.spans] using hs.queued.append (p := (st, fi)) le_rfl hlt }
  cases h with
  | stopZero _ _ => exact hbit.mono hlt.le le_rfl
  | commandStop _ _ =>
    have hstop := hbit.emit (p := .stop) (by simp [Payload.category]) hlt le_rfl
    exact { tref := hs.first, first := hs.first, queued := .nil, out := hstop.out }
  | responseStop _ _ =>
    have hstop := hbit.emit (p := .stop) (by simp [Payload.category]) hlt le_rfl
    exact { tref := hs.tref, first := hs.first, queued := .nil, out := hstop.out }
  | queued _ _ => exact hpush
  | byte _ hq ht =>
    obtain rfl := no_bits_left hbits hq
    exact ht.frameTimes
      (withByte_frameTimes (s := pushBit ⟨b, st, fi⟩ (withBit b st fi s)) hpush hq)

theorem SameFrame.spans {s t : State} (h : SameFrame s t) : t.spans.Sublist s.spans := by
  rw [State.spans, State.spans, h.byteq]
  rcases h.bitq with hb | hb <;> simp [hb]

theorem SameFrame.frameTimes {m n : Nat} {s t : State} (h : SameFrame s t) (hs : s.FrameTimes m n) :
    t.FrameTimes m n := hs.dropQueued h.tref h.cmd h.out h.spans

theorem finishTick_frameTimes {m n k : Nat} {d : Bool} {s : State} (hs : s.FrameTimes m n) :
    (finishTick d k s).FrameTimes m n := by
  refine hs.dropQueued (by simp) (by simp) (by simp) ?_
  rcases timeoutCheck_cases k s with ⟨_, h⟩ | ⟨_, h⟩ <;> simp [State.spans, h]

/-! ## The cell in progress -/

theorem cellSound_seekFall {s : State} (hc : s.cph = .seekFall) : s.CellSound := by
  simp [State.CellSound, hc]

theorem cellSound_seekRise {s : State} (hc : s.cph = .seekRise) (hvalid : s.prevValid = true)
    (hprev : s.prev = false) (hfall : s.fall < s.sidx) : s.CellSound :=
  ⟨fun _ => ⟨hvalid, hprev, hfall⟩, by simp [hc]⟩

theorem cellSound_seekEvent {s : State} (hc : s.cph = .seekEvent) (hvalid : s.prevValid = true)
    (hprev : s.prev = true) (hseen : s.riseValid = true) (hfall : s.fall < s.rise)
    (hlow : s.low = s.rise - s.fall) (hrise : s.rise < s.sidx)
    (hopen : s.sidx - s.rise ≤ 4 * s.low) : s.CellSound :=
  ⟨by simp [hc], fun _ => ⟨hvalid, hprev, hseen, hfall, hlow, hrise, hopen⟩⟩

/-- One tick of a decoding session keeps what each classifier phase says of the line and the cell
(rule R140). -/
theorem ClassifyEffect.cellSound {d : Bool} {s u : State} (h : ClassifyEffect (s.edge d) s u)
    (hs : s.CellSound) : (finishTick d s.sidx u).CellSound := by
  obtain ⟨hrise, hevent⟩ := hs
  cases h with
  | unchanged h =>
    rcases h with ⟨hc, _⟩ | ⟨hc, he⟩ | ⟨hc, he, hi⟩
    · exact cellSound_seekFall (by simp [hc])
    · obtain ⟨hvalid, hprev, hfall⟩ := hrise hc
      have hd : d = false := by simpa [edge_eq_rising, hvalid, hprev] using he
      exact cellSound_seekRise (by simp [hc]) rfl hd (by simp; omega)
    · obtain ⟨hvalid, hprev, hseen, hfall, hlow, hpast, _⟩ := hevent hc
      have hd : d = true := by simpa [edge_eq_falling, hvalid, hprev] using he
      have hopen := idleReached_eq_false_iff.1 hi
      exact cellSound_seekEvent (by simp [hc]) rfl hd (by simp [hseen]) (by simp [hfall])
        (by simp [hlow]) (by simp; omega) (by simp; omega)
  | opened _ he =>
    obtain ⟨_, _, hd⟩ := edge_eq_falling.1 he
    exact cellSound_seekRise (by simp) rfl hd (by simp)
  | rose hc he =>
    obtain ⟨_, _, hd⟩ := edge_eq_rising.1 he
    obtain ⟨_, _, hfall⟩ := hrise hc
    exact cellSound_seekEvent (by simp) rfl hd (by simp) (by simp [hfall]) (by simp) (by simp)
      (by simp; omega)
  | closedByFall _ he _ =>
    obtain ⟨_, _, hd⟩ := edge_eq_falling.1 he
    exact cellSound_seekRise (by simp) rfl hd (by simp)
  | closedByIdle _ _ _ _ => exact cellSound_seekFall (by simp)

/-! ## The times across a tick -/

/-- The end of a tick moves the sample index on, past every time recorded so far. -/
theorem finishTick_timesSound {m n : Nat} {d : Bool} {u : State} (hfall : u.fall ≤ n)
    (hrise : u.rise ≤ n) (hframe : u.FrameTimes m n) (hm : m ≤ (finishTick d n u).horizon) :
    (finishTick d n u).TimesSound :=
  timesSound_iff.2 ⟨by simp; omega, by simp; omega,
    (finishTick_frameTimes hframe).mono hm (by simp)⟩

/-- In SEEK_EVENT the cell in progress began before now, and at the horizon. -/
theorem cell_of_seekEvent {s : State} (hs : s.CellSound) (hc : s.cph = .seekEvent) :
    s.fall < s.sidx ∧ s.horizon = s.fall := by
  obtain ⟨_, _, _, hlt, _, hpast, _⟩ := hs.2 hc
  exact ⟨hlt.trans hpast, by simp [State.horizon, hc]⟩

/-- One tick of a decoding session keeps the times: a bit is classified at the horizon. -/
theorem ClassifyEffect.timesSound {d : Bool} {s u : State} (h : ClassifyEffect (s.edge d) s u)
    (hbits : s.bitq.length ≤ 7) (hcell : s.CellSound) (hs : s.TimesSound) :
    (finishTick d s.sidx u).TimesSound := by
  obtain ⟨hfall, hrise, hframe⟩ := timesSound_iff.1 hs
  cases h with
  | unchanged _ =>
    refine finishTick_timesSound hfall hrise hframe ?_
    simp only [State.horizon, finishTick_cph, finishTick_sidx, finishTick_fall]
    split <;> omega
  | opened hc _ =>
    exact finishTick_timesSound (by simp) (by simpa) ((openCell_sameFrame _ _).frameTimes hframe)
      (by simp [State.horizon, hc])
  | rose hc _ =>
    exact finishTick_timesSound hfall (by simp)
      (hframe.dropQueued rfl rfl rfl (List.Sublist.refl _)) (by simp [State.horizon, hc])
  | closedByFall hc _ ht =>
    obtain ⟨hlt, hhor⟩ := cell_of_seekEvent hcell hc
    have ht' := ht.frameTimes hbits hlt (hhor ▸ hframe)
    exact finishTick_timesSound (by simp) (by simpa [ht.keeps.rise])
      ((openCell_sameFrame _ _).frameTimes ht') (by simp [State.horizon])
  | closedByIdle hc _ _ ht =>
    obtain ⟨hlt, hhor⟩ := cell_of_seekEvent hcell hc
    have ht' := ht.frameTimes hbits hlt (hhor ▸ hframe)
    exact finishTick_timesSound (by simpa [ht.keeps.fall]) (by simpa [ht.keeps.rise])
      (ht'.dropQueued rfl rfl rfl (List.Sublist.refl _)) (by simp [State.horizon])

/-! ## The whole invariant -/

theorem sessionStart_sound (rate gap : Nat) (s : State) : (sessionStart rate gap s).Sound := by
  refine ⟨sessionStart_queuesSound rate gap s, ?_⟩
  rw [sessionStart_eq]
  refine ⟨⟨nofun, nofun⟩, timesSound_iff.2 ⟨le_rfl, le_rfl, le_rfl, le_rfl, .nil, ?_⟩, rfl,
    fun _ => rfl⟩
  intro r hr
  dsimp only at hr
  split_ifs at hr
  · exact .inl (by simp_all [Payload.category])
  · exact .inl (by simp_all [Payload.category])
  · cases hr

/-- Settles O58: reset is the session start of log entry 3. -/
theorem sessionStartIsSound : Obligations.SessionStartIsSound :=
  ⟨sessionStart_sound 5000000 100 State.reset, sessionStart_sound⟩

theorem ClassifyEffect.sound {d : Bool} {s u : State} (h : ClassifyEffect (s.edge d) s u)
    (hf : s.fatal = false) (hs : s.Sound) : (finishTick d s.sidx u).Sound := by
  obtain ⟨hqueues, hcell, htimes, hrate, _⟩ := hs
  obtain ⟨_, _, _, hfatal, hrate', _⟩ := h.session
  exact ⟨finishTick_queuesSound (h.queuesSound hqueues), h.cellSound hcell,
    h.timesSound hqueues.1 hcell htimes, by simp [hfatal, hrate', hrate], by simp [hfatal, hf]⟩

/-- Settles O60, part by part of the invariant: a bit is only classified at the horizon, and the
sample index moves only where FATAL is 0. -/
theorem everyStepKeepsSoundness : Obligations.EveryStepKeepsSoundness := fun _ _ hs h =>
  step_preserves (P := State.Sound) (fun _ _ h => h) sessionStart_sound
    (fun _ _ _ hf hs hc => hc.sound hf hs) hs h

end Sys2Proof.Machine
end

section
/-! PROOFS. The statements of `20_memory.md`: a byte's bits on the wire, and the command of a placed
table word. -/

namespace Sys2Proof.Machine

/-! ## A byte's bits on the wire -/

/-- Unpacking a packed byte gives its eight bits (rules R62, R161). -/
theorem byteBits_packByte : ∀ b0 b1 b2 b3 b4 b5 b6 b7 : Bool,
    byteBits (packByte b0 b1 b2 b3 b4 b5 b6 b7) = [b0, b1, b2, b3, b4, b5, b6, b7] := by
  decide

/-- A byte is determined by its bits on the wire. -/
theorem byteBits_injective : Function.Injective byteBits := by
  intro v w h
  simp only [byteBits, List.cons.injEq, and_true] at h
  obtain ⟨h7, h6, h5, h4, h3, h2, h1, h0⟩ := h
  apply BitVec.eq_of_getLsbD_eq
  intro i hi
  interval_cases i <;> assumption

/-- Settles O3: unpacking undoes packing, and a byte is determined by its bits. -/
theorem wireBitsPackBack : Obligations.WireBitsPackBack := by
  intro v b0 b1 b2 b3 b4 b5 b6 b7
  rw [← byteBits_packByte, byteBits_injective.eq_iff, eq_comm]

/-- The bits of a byte, arriving in wire order, pack to it again. -/
theorem packByte_getLsbD (v : Byte) :
    packByte (v.getLsbD 7) (v.getLsbD 6) (v.getLsbD 5) (v.getLsbD 4) (v.getLsbD 3) (v.getLsbD 2)
      (v.getLsbD 1) (v.getLsbD 0) = v :=
  (wireBitsPackBack v _ _ _ _ _ _ _ _).2 rfl

/-! ## From the falling edge to the command -/

/-- A falling edge that closes a cell: its bit is handed on, and the tick goes on with what that
leaves (rules R133, R260). -/
theorem step_of_closeByFall {s : State} {acts : List HostAct} (hs : s.Decoding)
    (hc : s.cph = .seekEvent) (hv : s.prevValid = true) (hp : s.prev = true)
    (h : s.SampleNext false acts) :
    step s = andThen
      (emitBit (bitValue (s.sidx - s.rise) s.low) s.fall s.sidx { s with host := acts })
      fun u => .next (finishTick false s.sidx (openCell s.sidx u)) := by
  have hedge : s.edge false = .falling := edge_eq_falling.2 ⟨hv, hp, rfl⟩
  obtain ⟨hstarted, hfatal⟩ := hs
  rw [step_of_decoding_eq hstarted hfatal h, hedge]
  simp only [classify, hc, closeByFall, andThen_assoc, andThen_next]

theorem frameStep_of_initial {s : State} (h : s.ph = .initial) : frameStep s = initialStep s := by
  simp [frameStep, h]

/-- The eighth bit in INITIAL makes a byte, inspected at once (rules R160 to R165, R170). -/
theorem emitBit_eighth {s : State} {b0 b1 b2 b3 b4 b5 b6 : BitEntry} {b : Bool} {st fi : Nat}
    (hph : s.ph = .initial) (hq : s.bitq = [b0, b1, b2, b3, b4, b5, b6]) :
    emitBit b st fi s = initialStep (withByte
      (packByte b0.val b1.val b2.val b3.val b4.val b5.val b6.val b) b0.start fi []
      (withBit b st fi s)) := by
  have hslot : inStopSlot (withBit b st fi s) = false := inStopSlot_eq_false_iff.2 (.inl hph)
  have hfull : (pushBit ⟨b, st, fi⟩ (withBit b st fi s)).bitq =
      [b0, b1, b2, b3, b4, b5, b6, ⟨b, st, fi⟩] := by simp [hq]
  rw [emitBit, acceptBit, hslot, if_neg Bool.false_ne_true, assembleIfFull,
    if_pos (by rw [hfull]; exact le_rfl), assemble, hfull]
  exact frameStep_of_initial hph

theorem initialStep_of_command {s : State} {i : Instr} (h : decode (queuedBytes s) = .command i) :
    initialStep s = exec i s := by
  simp [initialStep, h]

/-! ## The placed command -/

@[simp] theorem decode_encode (i : Instr) : decode (encode i) = .command i := by
  cases i <;> simp [decode, encode, Instr.opcode, Instr.params]

/-- A queue that holds exactly a command's encoding runs it to completion (rule R174). -/
theorem exec_of_encoded {s : State} {i : Instr} (h : queuedBytes s = encode i) :
    ∃ t, exec i s = .next t ∧ t.ph = .awaitCommandStop ∧ t.cmd.op = i.opcode.byte := by
  obtain ⟨e, rest, hq, _, _⟩ := List.map_eq_cons_iff.1 h
  have hl : i.opcode.cmdLen ≤ s.byteq.length := by
    rw [← length_encode, ← h, queuedBytes, List.length_map]
  exact ⟨commandDone i e s, exec_of_queued hq hl, rfl, rfl⟩

theorem decode_of_decodeTableWord {nbits w : Nat} {i : Instr} (h : decodeTableWord nbits w = some i) :
    decode (tableBytes nbits w) = .command i := by
  unfold decodeTableWord at h
  split at h
  · next hd => rw [hd, Option.some.inj h]
  all_goals cases h

/-- The bytes placed for a command are its encoding. -/
theorem placedBytes_of_command {bs : List Byte} {i : Instr} (h : decode bs = .command i) :
    placedBytes bs = encode i := by
  simp [placedBytes, h]

@[simp] theorem map_val_byteEntriesFrom (t : Nat) (bs : List Byte) :
    (byteEntriesFrom t bs).map (·.val) = bs := by
  induction bs generalizing t with
  | nil => rfl
  | cons v vs ih => simp [byteEntriesFrom, ih]

/-- The last cell placed carries the lowest bit of the last byte (rules R91, R111). -/
theorem bitValue_t20 (n : Nat) (b : Bool) :
    bitValue (n + 20 - (n + (t20 b).low)) (t20 b).low = b := by
  cases b <;> simp [bitValue, t20, Nat.add_sub_add_left]

/-- The state in which a placed command runs: its last byte is queued and annotated. -/
def placedReady (bs : List Byte) (s : State) : State :=
  let last := (placedBytes bs).getLastD 0#8
  let p := placeCommand bs s
  withByte last (s.sidx + 10 + 160 * ((placedBytes bs).length - 1)) p.sidx []
    (withBit (last.getLsbD 0) p.fall p.sidx { p with host := s.host })

theorem queuedBytes_placedReady {bs : List Byte} (s : State) (h : placedBytes bs ≠ []) :
    queuedBytes (placedReady bs s) = placedBytes bs := by
  have hlast : (placedBytes bs).dropLast ++ [(placedBytes bs).getLastD 0#8] = placedBytes bs := by
    rw [List.getLastD_eq_getLast?, List.getLast?_eq_some_getLast h]
    exact List.dropLast_append_getLast h
  simpa [queuedBytes, placedReady, placeCommand] using hlast

/-- The sample after a placing closes the last cell, completes the last byte and inspects it. -/
theorem step_placeCommand (bs : List Byte) (s : State) :
    step (placeCommand bs s) = andThen (initialStep (placedReady bs s)) fun u =>
      .next (finishTick false (placedReady bs s).sidx (openCell (placedReady bs s).sidx u)) := by
  have hbit : bitValue ((placeCommand bs s).sidx - (placeCommand bs s).rise)
      (placeCommand bs s).low = ((placedBytes bs).getLastD 0#8).getLsbD 0 := bitValue_t20 _ _
  rw [step_of_closeByFall (s := placeCommand bs s) ⟨rfl, rfl⟩ rfl rfl rfl rfl, hbit,
    emitBit_eighth rfl rfl]
  dsimp only
  rw [packByte_getLsbD]
  rfl

/-- Settles O17: the sample after the placing completes the queue to the command's encoding. -/
theorem fetchWordRunsItsCommand : Obligations.FetchWordRunsItsCommand := by
  intro s nbits w i h
  have hplaced := placedBytes_of_command (decode_of_decodeTableWord h)
  have hq : queuedBytes (placedReady (tableBytes nbits w) s) = encode i := by
    rw [queuedBytes_placedReady s (by simp [hplaced, encode]), hplaced]
  obtain ⟨t, ht, hph, hop⟩ := exec_of_encoded hq
  refine ⟨placedReady (tableBytes nbits w) s, t, rfl, hq, ht, hph, hop, ?_⟩
  rw [State.withFetchWord, step_placeCommand, initialStep_of_command (hq ▸ decode_encode i), ht,
    andThen_next]

end Sys2Proof.Machine
end

section
/-! PROOFS. The statements of `30_encoding.md` about commands as bytes. -/

namespace Sys2Proof

/-! ## Decoder and encoder -/

/-- Whatever is queued behind a command's encoding, the decoder reads the command (rule R171). -/
@[simp] theorem decode_encode_append (i : Instr) (rest : List Byte) :
    decode (encode i ++ rest) = .command i := by
  cases i <;> simp [decode, encode, Instr.opcode, Instr.params]

/-- An opcode byte with its command length of bytes queued begins with the encoding of some command:
a parameter byte may have any value (rule R173). -/
theorem exists_encode_of_cmdLen_le {o : Opcode} {ps : List Byte}
    (h : o.cmdLen ≤ (o.byte :: ps).length) : ∃ j rest, o.byte :: ps = encode j ++ rest := by
  cases o with
  | probe => exact ⟨.probe, ps, rfl⟩
  | reset => exact ⟨.reset, ps, rfl⟩
  | origin => exact ⟨.origin, ps, rfl⟩
  | calib => exact ⟨.calib, ps, rfl⟩
  | statusl => exact ⟨.statusl, ps, rfl⟩
  | status =>
    match ps, h with
    | p1 :: p2 :: rest, _ => exact ⟨.status p1 p2, rest, rfl⟩
  | kbd =>
    match ps, h with
    | p1 :: p2 :: rest, _ => exact ⟨.kbd p1 p2, rest, rfl⟩

/-- Settles O2: a queue that decodes has its opcode's byte at the head and its length, so it begins
with the encoding of some command, which can only be the one decoded. -/
theorem decodeInvertsEncode : Obligations.DecodeInvertsEncode := by
  intro i bs
  constructor
  · intro h
    cases bs with
    | nil => cases h
    | cons b ps =>
      obtain rfl := ofByte_eq_some.1 (decode_command_head h)
      obtain ⟨j, rest, hj⟩ := exists_encode_of_cmdLen_le (decode_command_length h)
      rw [hj, decode_encode_append] at h
      cases h
      exact ⟨rest, hj⟩
  · rintro ⟨rest, rfl⟩
    exact decode_encode_append i rest

/-- Settles O1: the rows and the words evaluate; a byte off the table is no opcode's. -/
theorem opcodeTableAsSpecified : Obligations.OpcodeTableAsSpecified := by
  refine ⟨by decide, by decide, by decide, by decide, by decide, by decide, by decide, by decide,
    by decide, by decide, ?_⟩
  intro b hb rest
  have hnone : Opcode.ofByte b = none := by
    rw [ofByte_eq_none]
    rintro o rfl
    cases o <;> exact hb (by decide)
  simp [decode, hnone]

end Sys2Proof
end

section
/-! PROOFS. The statements of `30_encoding.md` about one cell on the wire: from the falling edge that
opens it to the sample that closes it. -/

namespace Sys2Proof.Machine

theorem run_one (s : State) : Sys2Proof.core.run 1 s = step s := by
  cases h : step s with
  | next t => exact run_succ_of_next 0 h
  | fault r => cases r
  | refused r =>
    have h' : Sys2Proof.core.step s = .refused r := h
    simp only [Host.Core.run, h']
    rfl

/-! ## The opening edge -/

/-- The tick of the falling edge at sample `n` has just opened a cell. -/
structure Opened (n : Nat) (s : State) : Prop where
  cph       : s.cph = .seekRise
  prevValid : s.prevValid = true
  prev      : s.prev = false
  fall      : s.fall = n
  sidx      : s.sidx = n + 1

/-- Whatever a falling edge closes, it opens the next cell (rules R131, R133). -/
theorem opened_finishTick (n : Nat) (s : State) : Opened n (finishTick false n (openCell n s)) := by
  constructor <;> simp

/-- A falling edge on an idle line opens a cell (rule R131). -/
theorem step_of_opening {s : State} {acts : List HostAct} (hs : s.Decoding) (hc : s.cph = .seekFall)
    (hv : s.prevValid = true) (hp : s.prev = true) (h : s.SampleNext false acts) :
    step s = .next (finishTick false s.sidx (openCell s.sidx { s with host := acts })) := by
  have hedge : s.edge false = .falling := edge_eq_falling.2 ⟨hv, hp, rfl⟩
  obtain ⟨hstarted, hfatal⟩ := hs
  rw [step_of_decoding_eq hstarted hfatal h, hedge]
  simp only [classify, hc, andThen_next]

/-- What the falling edge that opens a cell leaves: it classifies nothing. -/
theorem step_opens {s : State} {acts : List HostAct} (hs : s.Decoding) (hc : s.cph = .seekFall)
    (hv : s.prevValid = true) (hp : s.prev = true) (h : s.SampleNext false acts) :
    ∃ t : State, step s = .next t ∧ Opened s.sidx t ∧ t.Decoding ∧ t.out = s.out ∧ t.host = acts :=
  ⟨_, step_of_opening hs hc hv hp h, opened_finishTick _ _, ⟨by simp [hs.1], by simp [hs.2]⟩, by simp,
    by simp⟩

/-! ## Up to the closing sample -/

/-- `u` is one sample before the end of a cell that `s` has just opened: its times are recorded, and
no bit was classified in between. -/
structure Measured (c : Cell) (s u : State) : Prop extends Quiet s u where
  cph       : u.cph = .seekEvent
  prev      : u.prev = true
  fall      : u.fall = s.fall
  rise      : u.rise = s.fall + c.low
  low       : u.low = c.low
  sidx      : u.sidx = s.fall + cellLength c

/-- `run_cell`, from the opening edge and with the samples in one list. -/
theorem run_measured {n : Nat} {c : Cell} {acts : List HostAct} {s : State} (hs : s.Decoding)
    (ho : Opened n s) (hw : c.wf = true)
    (h : s.host = (List.replicate (c.low - 1) false ++ List.replicate c.high true).map .sample ++ acts) :
    ∃ u : State, Sys2Proof.core.run (c.low - 1 + c.high) s = .next u ∧ Measured c s u ∧
      u.host = acts := by
  obtain ⟨hstarted, hfatal⟩ := hs
  obtain ⟨u, hu, hq, hcph, hprev, hfall, hrise, hlow, -, hsidx, hacts⟩ :=
    run_cell (acts := acts) hstarted hfatal ho.cph ho.prevValid ho.prev (by rw [ho.sidx, ho.fall]) hw
      (by simp [h])
  exact ⟨u, hu, ⟨hq, hcph, hprev, hfall, hrise, hlow, hsidx⟩, hacts⟩

theorem Measured.decoding {c : Cell} {s u : State} (h : Measured c s u) (hs : s.Decoding) :
    u.Decoding :=
  ⟨h.started.trans hs.1, h.fatal.trans hs.2⟩

theorem Measured.withHost {c : Cell} {s u : State} (h : Measured c s u) (acts : List HostAct) :
    Measured c s { u with host := acts } :=
  ⟨⟨h.out, h.gap, h.fatal, h.started, h.prevValid, h.initial⟩, h.cph, h.prev, h.fall, h.rise, h.low,
    h.sidx⟩

/-! ## The closing sample -/

/-- The samples of a cell after its falling edge, up to and with the falling edge that closes it. -/
def cellRest (c : Cell) : List Bool :=
  List.replicate (c.low - 1) false ++ List.replicate c.high true ++ [false]

theorem wf_low_pos {c : Cell} (hw : c.wf = true) : 1 ≤ c.low := by
  simp only [Cell.wf, Cell.hasLow, Bool.and_eq_true, decide_eq_true_eq] at hw
  obtain ⟨⟨hlow, -⟩, -⟩ := hw
  exact hlow

/-- Moving a cell's boundary from before its falling edge to after it. -/
theorem cellSamples_append_false {c : Cell} (hw : c.wf = true) :
    cellSamples c ++ [false] = false :: cellRest c := by
  have hlow : c.low = c.low - 1 + 1 := by have := wf_low_pos hw; omega
  rw [cellSamples, hlow, List.replicate_succ, cellRest]
  simp

/-- A cell from just after its falling edge up to and with the next: the bit of its own ratio is
handed on, over the cell's span, and the next cell is opened (rules R91, R131 to R133). -/
theorem run_cellRest {n : Nat} {c : Cell} {acts : List HostAct} {s : State} (hs : s.Decoding)
    (ho : Opened n s) (hw : c.wf = true) (h : s.host = (cellRest c).map .sample ++ acts) :
    ∃ u : State, Measured c s u ∧ u.host = acts ∧ Sys2Proof.core.run (cellLength c) s =
      andThen (emitBit (cellBit c) n (n + cellLength c) u) fun v =>
        .next (finishTick false (n + cellLength c) (openCell (n + cellLength c) v)) := by
  obtain ⟨u, hu, hm, hacts⟩ := run_measured (acts := .sample false :: acts) hs ho hw
    (by simp [h, cellRest])
  refine ⟨{ u with host := acts }, hm.withHost acts, rfl, ?_⟩
  have hlen : cellLength c = c.low - 1 + c.high + 1 := by
    have := wf_low_pos hw
    simp only [cellLength]
    omega
  have hfall : u.fall = n := hm.fall.trans ho.fall
  have hsidx : u.sidx = n + cellLength c := by rw [hm.sidx, ho.fall]
  have hbit : bitValue (u.sidx - u.rise) u.low = cellBit c := by
    rw [hm.sidx, hm.rise, hm.low, cellLength, Nat.add_sub_add_left, Nat.add_sub_cancel_left, cellBit]
  rw [← hsidx, ← hfall, ← hbit,
    ← step_of_closeByFall (hm.decoding hs) hm.cph hm.prevValid hm.prev hacts, hlen,
    run_add_of_next 1 hu, run_one]

/-- Settles O26: the opening edge, the rest of the cell, and the records of one classified bit. -/
theorem cellIsClassifiedByItsOwnRatio : Obligations.CellIsClassifiedByItsOwnRatio := by
  intro c acts s hs hc hv hp hw hhost
  rw [cellSamples_append_false hw] at hhost
  obtain ⟨a, ha, hopened, hdec, hout_a, hhost_a⟩ := step_opens hs hc hv hp hhost
  obtain ⟨u, hm, hhost_u, hrun⟩ := run_cellRest hdec hopened hw hhost_a
  obtain ⟨v, hv, hbit⟩ := emitBit_cases (cellBit c) s.sidx (s.sidx + cellLength c) u
  obtain ⟨more, hout, hmore⟩ := hbit.out
  have hkeeps := hbit.keeps
  rw [hv, andThen_next] at hrun
  refine ⟨_, more, (run_succ_of_next _ ha).trans hrun, ?_, hmore, by simp, by simp, ?_, ?_, ?_⟩
  · rw [finishTick_out, openCell_out, hout, hm.out, hout_a, cellBit, bitValue, decide_not]
  · simp [hkeeps.rise, hm.rise, hopened.fall]
  · simp [hkeeps.low, hm.low]
  · simp [hkeeps.host, hhost_u]

/-- A high sample at the idle point closes the cell with a 1 (rules R134, R260). -/
theorem step_of_closeByIdle {s : State} {acts : List HostAct} (hs : s.Decoding)
    (hc : s.cph = .seekEvent) (hi : 4 * s.low ≤ s.sidx - s.rise) (h : s.SampleNext true acts) :
    step s = andThen (emitBit true s.fall s.sidx { s with host := acts }) fun u =>
      .next (finishTick true s.sidx { u with cph := .seekFall }) := by
  have hedge : s.edge true ≠ .falling := by simp [edge_eq_falling]
  have hidle : idleReached (s.sidx - s.rise) s.low = true := idleReached_iff.2 hi
  obtain ⟨hstarted, hfatal⟩ := hs
  rw [step_of_decoding_eq hstarted hfatal h]
  cases he : s.edge true with
  | falling => exact absurd he hedge
  | none => simp only [classify, hc, hidle, if_true, closeByIdle, andThen_assoc, andThen_next]
  | rising => simp only [classify, hc, hidle, if_true, closeByIdle, andThen_assoc, andThen_next]

/-- Settles O27: the cell `(l, 4 * l)` is the longest that is still open, and the high sample after it
closes it by idle. -/
theorem cellClosedByIdleIsOne : Obligations.CellClosedByIdleIsOne := by
  intro l acts s hs hc hv hp hl hhost
  have hw : (Cell.mk l (4 * l)).wf = true := by
    simp [Cell.wf, Cell.hasLow, Cell.hasHigh, Cell.notIdle]
    omega
  have hsamples : s.host = .sample false :: ((List.replicate (l - 1) false ++
      List.replicate (4 * l) true).map .sample ++ .sample true :: acts) := by
    rw [hhost, ← Nat.sub_add_cancel hl, List.replicate_succ' (n := 4 * _), List.replicate_succ]
    simp
  obtain ⟨a, ha, hopened, hdec, hout_a, hhost_a⟩ := step_opens hs hc hv hp hsamples
  obtain ⟨u, hu, hm, hhost_u⟩ := run_measured hdec hopened hw hhost_a
  have hfall : u.fall = s.sidx := hm.fall.trans hopened.fall
  have hlow : u.low = l := hm.low
  have hrise : u.rise = s.sidx + l := by rw [hm.rise, hopened.fall]
  have hsidx : u.sidx = s.sidx + 5 * l := by
    rw [hm.sidx, hopened.fall]
    simp only [cellLength]
    omega
  have hstep := step_of_closeByIdle (hm.decoding hdec) hm.cph (by omega) hhost_u
  obtain ⟨v, hv, hbit⟩ := emitBit_cases true u.fall u.sidx { u with host := acts }
  obtain ⟨more, hout, -⟩ := hbit.out
  have hkeeps := hbit.keeps
  rw [hv, andThen_next] at hstep
  refine ⟨finishTick true u.sidx { v with cph := .seekFall }, more, ?_, ?_, by simp, ?_, ?_, ?_, ?_⟩
  · have hlen : 5 * l = l - 1 + 4 * l + 1 := by omega
    rw [run_succ_of_next _ ha, hlen, run_add_of_next 1 hu, run_one]
    exact hstep
  · rw [finishTick_out, hout, hm.out, hout_a, hfall, hsidx]
  · simp [hkeeps.fall, hfall]
  · simp [hkeeps.rise, hrise]
  · simp [hkeeps.low, hlow]
  · simp [hkeeps.host]

end Sys2Proof.Machine
end

section
/-! PROOFS. The statement of `30_encoding.md` about a whole command on the wire: its cells make bits,
its bits bytes, and its bytes complete it. -/

namespace Sys2Proof.Machine

/-! ## What is collected in INITIAL -/

/-- A decoding session in INITIAL has queued the bytes `q` and the bits `b`; the host goes on with
`acts`. -/
structure Collecting (gap : Nat) (q : List ByteEntry) (b : List BitEntry) (acts : List HostAct)
    (s : State) : Prop where
  decoding : s.Decoding
  ph       : s.ph = .initial
  gap      : s.gap = gap
  byteq    : s.byteq = q
  bitq     : s.bitq = b
  host     : s.host = acts

section
variable {gap n : Nat} {q : List ByteEntry} {b : List BitEntry} {acts : List HostAct} {s : State}

/-- The end of a falling edge's tick keeps what is collected unless the desync check discards bits. -/
theorem Collecting.endTick (h : Collecting gap q b acts s) (hb : (openCell n s).bitq = s.bitq) :
    Collecting gap q b acts (finishTick false n (openCell n s)) := by
  have hcheck : timeoutCheck n (openCell n s) = openCell n s :=
    timeoutCheck_of_ne (by simp [h.ph])
  obtain ⟨⟨hstarted, hfatal⟩, hph, hgap, hq, hbits, hhost⟩ := h
  exact ⟨⟨by simp [hstarted], by simp [hfatal]⟩, by simp [hcheck, hph], by simp [hgap],
    by simp [hcheck, hq], by simp [hcheck, hb, hbits], by simp [hhost]⟩

/-- Where no bits are queued there are none to discard. -/
theorem Collecting.endTick_of_empty (h : Collecting gap q [] acts s) :
    Collecting gap q [] acts (finishTick false n (openCell n s)) :=
  h.endTick ((openCell_bitq_of_empty h.bitq).trans h.bitq.symm)

/-- Measuring a cell leaves what is collected alone. -/
theorem Collecting.measured {acts' : List HostAct} {c : Cell} {u : State}
    (h : Collecting gap q b acts' s) (hm : Measured c s u) (hhost : u.host = acts) :
    Collecting gap q b acts u := by
  obtain ⟨hph, hbits, hbytes, -, -⟩ := hm.initial h.ph
  exact ⟨hm.decoding h.decoding, hph, hm.gap.trans h.gap, hbytes.trans h.byteq, hbits.trans h.bitq,
    hhost⟩

/-- The desync check discards nothing where the gap since the rising edge does not exceed `GAP`
(rule R136). -/
theorem openCell_bitq_of_le (h : n - s.rise ≤ s.gap) : (openCell n s).bitq = s.bitq := by
  rcases desyncCheck_cases n s with ⟨hexceeded, -⟩ | ⟨-, heq⟩
  · simp [gapExceeded] at hexceeded
    omega
  · simp [openCell, heq]

/-! ## Seven bits -/

/-- A bit that leaves fewer than eight queued only joins the queue (rule R160). -/
theorem emitBit_of_short {v : Bool} {st fi : Nat} (hph : s.ph = .initial) (hl : s.bitq.length < 7) :
    emitBit v st fi s = .next (pushBit ⟨v, st, fi⟩ (withBit v st fi s)) := by
  have hslot : inStopSlot (withBit v st fi s) = false := inStopSlot_eq_false_iff.2 (.inl hph)
  have hshort : ¬ Config.bitqDepth ≤ (pushBit ⟨v, st, fi⟩ (withBit v st fi s)).bitq.length := by
    simp [Config.bitqDepth]
    omega
  rw [emitBit, acceptBit, hslot, if_neg Bool.false_ne_true, assembleIfFull, if_neg hshort]

/-- One of the first seven cells of a byte adds its bit to the queue. -/
theorem run_bit {c : Cell} (h : Collecting gap q b ((cellRest c).map .sample ++ acts) s)
    (ho : Opened n s) (hw : c.wf = true) (hgap : c.high ≤ gap) (hl : b.length < 7) :
    ∃ t : State, Sys2Proof.core.run (cellLength c) s = .next t ∧
      Collecting gap q (b ++ [⟨cellBit c, n, n + cellLength c⟩]) acts t ∧
      Opened (n + cellLength c) t := by
  obtain ⟨u, hm, hhost, hrun⟩ := run_cellRest h.decoding ho hw h.host
  obtain ⟨hdec, hph, hugap, hq, hb, hacts⟩ := h.measured hm hhost
  rw [emitBit_of_short hph (by rw [hb]; exact hl), andThen_next] at hrun
  refine ⟨_, hrun, Collecting.endTick ⟨hdec, hph, hugap, hq, by simp [hb], hacts⟩ ?_,
    opened_finishTick _ _⟩
  apply openCell_bitq_of_le
  simp only [pushBit_rise, emit_rise, pushBit_gap, emit_gap, hugap, hm.rise, ho.fall, cellLength]
  omega

/-- The bit entries of cells back to back from sample `n`. -/
def cellEntries (n : Nat) : List Cell → List BitEntry
  | [] => []
  | c :: cs => ⟨cellBit c, n, n + cellLength c⟩ :: cellEntries (n + cellLength c) cs

/-- Up to seven cells add their bits to the queue. -/
theorem run_bits {cs : List Cell}
    (h : Collecting gap q b ((cs.flatMap cellRest).map .sample ++ acts) s) (ho : Opened n s)
    (hw : ∀ c ∈ cs, c.wf = true ∧ c.high ≤ gap) (hl : b.length + cs.length ≤ 7) :
    ∃ t : State, Sys2Proof.core.run (cellsLength cs) s = .next t ∧
      Collecting gap q (b ++ cellEntries n cs) acts t ∧ Opened (n + cellsLength cs) t := by
  induction cs generalizing b n s with
  | nil => exact ⟨s, rfl, by simpa [cellEntries] using h, ho⟩
  | cons c cs ih =>
    rw [List.forall_mem_cons] at hw
    obtain ⟨⟨hwf, hhigh⟩, hw⟩ := hw
    rw [List.length_cons] at hl
    obtain ⟨u, hu, hc, ho⟩ := run_bit (acts := (cs.flatMap cellRest).map .sample ++ acts)
      (by simpa using h) ho hwf hhigh (by omega)
    obtain ⟨t, ht, hc, ho⟩ := ih hc ho hw (by simp; omega)
    refine ⟨t, (run_add_of_next _ hu).trans ht, ?_, ?_⟩
    · simpa [cellEntries] using hc
    · rwa [cellsLength, ← Nat.add_assoc]

/-! ## A byte -/

theorem cellsLength_append (cs ds : List Cell) :
    cellsLength (cs ++ ds) = cellsLength cs + cellsLength ds := by
  induction cs with
  | nil => simp [cellsLength]
  | cons c cs ih => simp [cellsLength, ih, Nat.add_assoc]

theorem cellsLength_singleton (c : Cell) : cellsLength [c] = cellLength c := rfl

/-- The eight cells of a byte. -/
theorem exists_cells_of_byteBits {cs : List Cell} {v : Byte} (h : cs.map cellBit = byteBits v) :
    ∃ c0 c1 c2 c3 c4 c5 c6 c7, cs = [c0, c1, c2, c3, c4, c5, c6] ++ [c7] ∧
      packByte (cellBit c0) (cellBit c1) (cellBit c2) (cellBit c3) (cellBit c4) (cellBit c5)
        (cellBit c6) (cellBit c7) = v := by
  have hlen : cs.length = 8 := by simpa [byteBits] using congrArg List.length h
  obtain ⟨c0, c1, c2, c3, c4, c5, c6, c7, rest, rfl⟩ := exists_eight (l := cs) (by omega)
  obtain rfl : rest = [] := by simpa using hlen
  exact ⟨c0, c1, c2, c3, c4, c5, c6, c7, rfl, (wireBitsPackBack v _ _ _ _ _ _ _ _).2 h.symm⟩

/-- Eight cells that carry a byte: the closing edge of the eighth queues the byte over their joint span
and hands it to the frame machine (rules R161, R165, R170). -/
theorem run_byte {cs : List Cell} {v : Byte}
    (h : Collecting gap q [] ((cs.flatMap cellRest).map .sample ++ acts) s) (ho : Opened n s)
    (hw : ∀ c ∈ cs, c.wf = true ∧ c.high ≤ gap) (hv : cs.map cellBit = byteBits v) :
    ∃ u, Collecting gap (q ++ [⟨v, n, n + cellsLength cs⟩]) [] acts u ∧
      Sys2Proof.core.run (cellsLength cs) s = andThen (initialStep u) fun w =>
        .next (finishTick false (n + cellsLength cs) (openCell (n + cellsLength cs) w)) := by
  obtain ⟨c0, c1, c2, c3, c4, c5, c6, c7, rfl, rfl⟩ := exists_cells_of_byteBits hv
  rw [List.forall_mem_append, List.forall_mem_singleton] at hw
  obtain ⟨hw, hw7, -⟩ := hw
  obtain ⟨a, ha, hc, ho⟩ := run_bits (acts := (cellRest c7).map .sample ++ acts)
    (by simpa only [List.flatMap_append, List.flatMap_singleton, List.map_append, List.append_assoc]
      using h) ho hw (by simp)
  obtain ⟨u, hm, hhost, hrun⟩ := run_cellRest hc.decoding ho hw7 hc.host
  obtain ⟨hdec, hph, hgap, hq, hb, hacts⟩ := hc.measured hm hhost
  rw [Nat.add_assoc n _ (cellLength c7), emitBit_eighth hph hb] at hrun
  rw [cellsLength_append, cellsLength_singleton, run_add_of_next _ ha]
  refine ⟨withByte _ _ _ [] (withBit _ _ _ u), ?_, hrun⟩
  exact ⟨hdec, hph, hgap, by simp [hq], rfl, hacts⟩

theorem initialStep_of_awaiting {o : Opcode} (h : decode (queuedBytes s) = .awaiting o) :
    initialStep s = .next s := by
  simp [initialStep, h]

/-- A byte after which the decoder still waits joins the queue (rule R173). -/
theorem run_waitingByte {cs : List Cell} {v : Byte} {o : Opcode}
    (h : Collecting gap q [] ((cs.flatMap cellRest).map .sample ++ acts) s) (ho : Opened n s)
    (hw : ∀ c ∈ cs, c.wf = true ∧ c.high ≤ gap) (hv : cs.map cellBit = byteBits v)
    (hd : decode (q.map (·.val) ++ [v]) = .awaiting o) :
    ∃ t : State, Sys2Proof.core.run (cellsLength cs) s = .next t ∧
      Collecting gap (q ++ [⟨v, n, n + cellsLength cs⟩]) [] acts t ∧
      Opened (n + cellsLength cs) t := by
  obtain ⟨u, hu, hrun⟩ := run_byte h ho hw hv
  have hq : queuedBytes u = q.map (·.val) ++ [v] := by simp [queuedBytes, hu.byteq]
  rw [initialStep_of_awaiting (hq ▸ hd), andThen_next] at hrun
  exact ⟨_, hrun, hu.endTick_of_empty, opened_finishTick _ _⟩

/-! ## A command -/

/-- Command `i` has completed with its opcode byte over `(st, fi)` (rule R174). -/
structure Recognised (i : Instr) (st fi : Nat) (acts : List HostAct) (t : State) : Prop where
  ph     : t.ph = .awaitCommandStop
  cmd    : t.cmd = ⟨i.opcode.byte, st⟩
  expLen : t.expLen = i.opcode.respLen
  record : ⟨st, fi, .cmd i.opcode.byte⟩ ∈ t.out
  host   : t.host = acts

theorem cmd_mem_commandRecords (i : Instr) (e : ByteEntry) (rest : List ByteEntry) :
    ⟨e.start, e.finish, .cmd i.opcode.byte⟩ ∈ commandRecords i (e :: rest) := by
  cases i with
  | status mode rumble =>
    match rest with
    | [] | [_] | _ :: _ :: _ => exact List.mem_cons_self
  | _ => exact List.mem_cons_self

/-- The last byte of a command completes it; `e` is the entry of its opcode byte. -/
theorem run_lastByte {cs : List Cell} {v : Byte} {i : Instr} {e : ByteEntry}
    (h : Collecting gap q [] ((cs.flatMap cellRest).map .sample ++ acts) s) (ho : Opened n s)
    (hw : ∀ c ∈ cs, c.wf = true ∧ c.high ≤ gap) (hv : cs.map cellBit = byteBits v)
    (hi : encode i = q.map (·.val) ++ [v])
    (he : (q ++ [(⟨v, n, n + cellsLength cs⟩ : ByteEntry)]).head? = some e) :
    ∃ t : State, Sys2Proof.core.run (cellsLength cs) s = .next t ∧
      Recognised i e.start e.finish acts t := by
  obtain ⟨u, hu, hrun⟩ := run_byte h ho hw hv
  have hq : queuedBytes u = encode i := by simp [queuedBytes, hu.byteq, hi]
  obtain ⟨rest, hcons⟩ := List.head?_eq_some_iff.1 he
  have hbyteq : u.byteq = e :: rest := hu.byteq.trans hcons
  have hlen : i.opcode.cmdLen ≤ u.byteq.length := by
    rw [← length_encode, ← hq, queuedBytes, List.length_map]
  rw [initialStep_of_command (hq ▸ decode_encode i), exec_of_queued hbyteq hlen,
    andThen_next] at hrun
  refine ⟨_, hrun, ?_, by simp [commandDone], by simp [commandDone], ?_, ?_⟩
  · rw [finishTick_ph_of_ne] <;> simp [commandDone]
  · simp only [finishTick_out, openCell_out, commandDone, hbyteq]
    exact List.mem_append_right _ (cmd_mem_commandRecords i e rest)
  · simp [commandDone, hu.host]

/-- While a part of a command's bytes is still to come, the decoder waits (rule R173). -/
theorem decode_of_incomplete {i : Instr} {vs ws : List Byte} {v w : Byte}
    (h : encode i = vs ++ v :: w :: ws) : ∃ o, decode (vs ++ [v]) = .awaiting o := by
  obtain ⟨ps, hps⟩ : ∃ ps, vs ++ [v] = i.opcode.byte :: ps := by
    cases vs <;> (injection h with hb; exact ⟨_, by rw [hb]; rfl⟩)
  have happend : encode i = (vs ++ [v]) ++ w :: ws := by simp [h]
  cases hd : decode (vs ++ [v]) with
  | awaiting o => exact ⟨o, rfl⟩
  | command j =>
    obtain ⟨rest, hj⟩ := (decodeInvertsEncode j _).1 hd
    rw [hj, List.append_assoc] at happend
    have hij : i = j := by
      simpa only [happend, decode_encode_append, Decoded.command.injEq, eq_comm] using decode_encode i
    subst hij
    simpa using congrArg List.length happend
  | unknownOpcode b =>
    rw [hps] at hd
    simpa using (decode_unknown hd).1
  | empty => exact absurd (hps ▸ hd) decode_ne_empty

/-- The remaining bytes of a command complete it. -/
theorem run_command {i : Instr} {e : ByteEntry} {v : Byte} {vs : List Byte} {cs : List Cell}
    (h : Collecting gap q [] ((cs.flatMap cellRest).map .sample ++ acts) s) (ho : Opened n s)
    (hw : ∀ c ∈ cs, c.wf = true ∧ c.high ≤ gap)
    (hv : cs.map cellBit = (v :: vs).flatMap byteBits) (hi : encode i = q.map (·.val) ++ v :: vs)
    (he : (q ++ [(⟨v, n, n + cellsLength (cs.take 8)⟩ : ByteEntry)]).head? = some e) :
    ∃ t : State, Sys2Proof.core.run (cellsLength cs) s = .next t ∧
      Recognised i e.start e.finish acts t := by
  induction vs generalizing q v cs n s with
  | nil =>
    rw [List.flatMap_singleton] at hv
    have hlen : cs.length = 8 := by simpa [byteBits] using congrArg List.length hv
    rw [List.take_of_length_le (by omega)] at he
    exact run_lastByte h ho hw hv hi he
  | cons w ws ih =>
    have hv8 : (cs.take 8).map cellBit = byteBits v := by rw [List.map_take, hv]; rfl
    have hvs : (cs.drop 8).map cellBit = (w :: ws).flatMap byteBits := by rw [List.map_drop, hv]; rfl
    obtain ⟨o, hd⟩ := decode_of_incomplete hi
    have hlen : cellsLength cs = cellsLength (cs.take 8) + cellsLength (cs.drop 8) := by
      rw [← cellsLength_append, List.take_append_drop]
    obtain ⟨u, hu, hc, ho⟩ := run_waitingByte
      (acts := ((cs.drop 8).flatMap cellRest).map .sample ++ acts)
      (by rwa [← List.append_assoc, ← List.map_append, ← List.flatMap_append,
        List.take_append_drop]) ho (fun c hc => hw c (List.mem_of_mem_take hc)) hv8 hd
    rw [hlen, run_add_of_next _ hu]
    exact ih hc ho (fun c hc => hw c (List.mem_of_mem_drop hc)) hvs (by simp [hi])
      (by rw [List.head?_append, he]; rfl)

end

/-! ## From an idle line -/

/-- `cellSamples_append_false` for a list of cells. -/
theorem cellsSamples_append_false {cs : List Cell} (hw : ∀ c ∈ cs, c.wf = true) :
    cellsSamples cs ++ [false] = false :: cs.flatMap cellRest := by
  induction cs with
  | nil => rfl
  | cons c cs ih =>
    rw [List.forall_mem_cons] at hw
    obtain ⟨hwf, hw⟩ := hw
    have hcons : cellsSamples (c :: cs) = cellSamples c ++ cellsSamples cs := List.flatMap_cons
    rw [hcons, List.append_assoc, ih hw, List.append_cons, cellSamples_append_false hwf]
    rfl

/-- Settles O39: the opening edge starts collecting with nothing queued, and the opcode byte is the
first to arrive. -/
theorem wellTimedCommandIsRecognised : Obligations.WellTimedCommandIsRecognised := by
  intro i cells acts s hs hph hbitq hbyteq hc hv hp hw hbits hhost
  rw [cellsSamples_append_false fun c hc => (hw c hc).1] at hhost
  have hopen := step_of_opening hs hc hv hp hhost
  have hstart : Collecting s.gap [] [] ((cells.flatMap cellRest).map .sample ++ acts)
      { s with host := (cells.flatMap cellRest).map .sample ++ acts } :=
    ⟨hs, hph, rfl, hbyteq, hbitq, rfl⟩
  obtain ⟨t, ht, hdone⟩ := run_command hstart.endTick_of_empty (opened_finishTick s.sidx _) hw
    hbits rfl rfl
  exact ⟨t, (run_succ_of_next _ hopen).trans ht, hdone.ph, hdone.cmd, hdone.expLen, hdone.record,
    hdone.host⟩

end Sys2Proof.Machine
end

section
/-! PROOFS. The statements of `30_encoding.md` about records on the annotation port. -/

namespace Sys2Proof.Machine

/-! ## Packing -/

/-- A byte alone in the payload's lower half. -/
theorem fieldAt_zero_toNat (v : Byte) : (fieldAt v 0).toNat = v.toNat := by
  rw [fieldAt, BitVec.shiftLeft_zero, BitVec.toNat_setWidth]
  omega

/-- The upper byte of a payload counts 256 (rule R122). -/
theorem pair16_toNat (hi lo : Byte) : (pair16 hi lo).toNat = 256 * hi.toNat + lo.toNat := by
  have hhi : (fieldAt hi 8).toNat = hi.toNat <<< 8 := by
    rw [fieldAt, BitVec.toNat_shiftLeft, BitVec.toNat_setWidth, Nat.shiftLeft_eq, Nat.shiftLeft_eq]
    omega
  rw [pair16, BitVec.toNat_or, hhi, fieldAt_zero_toNat,
    ← Nat.shiftLeft_add_eq_or_of_lt lo.isLt, Nat.shiftLeft_eq]
  omega

/-- An axis is packed modulo 256 (rule R122). -/
theorem axisByte_toNat (x : Int) : ((axisByte x).toNat : Int) = x % 256 := by
  rw [axisByte, BitVec.toNat_ofInt]
  omega

theorem pair16_axes_toNat (x y : Int) :
    ((pair16 (axisByte x) (axisByte y)).toNat : Int) = 256 * (x % 256) + y % 256 := by
  rw [pair16_toNat]
  push_cast
  rw [axisByte_toNat, axisByte_toNat]

/-! The identify fields and the buttons are few bits each, so their packings are checked outright. -/

theorem pack_id0_toNat : ∀ (a b c e : Bool) (d : BitVec 2),
    (Payload.id0 ⟨a, b, c, d, e⟩).pack.toNat =
      32 * a.toNat + 16 * b.toNat + 8 * c.toNat + 2 * d.toNat + e.toNat := by
  decide

theorem pack_id2_toNat : ∀ (a b c : Bool) (d : BitVec 2) (e : BitVec 3),
    (Payload.id2 ⟨a, b, c, d, e⟩).pack.toNat =
      128 * a.toNat + 64 * b.toNat + 32 * c.toNat + 8 * d.toNat + e.toNat := by
  decide

theorem pack_btn0_toNat : ∀ a b c d e : Bool,
    (Payload.btn0 ⟨a, b, c, d, e⟩).pack.toNat =
      a.toNat + 2 * b.toNat + 4 * c.toNat + 8 * d.toNat + 16 * e.toNat := by
  decide

theorem pack_btn1_toNat : ∀ a b c d e f g : Bool,
    (Payload.btn1 ⟨a, b, c, d, e, f, g⟩).pack.toNat =
      a.toNat + 2 * b.toNat + 4 * c.toNat + 8 * d.toNat + 16 * e.toNat + 32 * f.toNat
        + 64 * g.toNat := by
  decide

/-- Settles O4: one lemma per shape of payload. -/
theorem payloadPacking : Obligations.PayloadPacking :=
  ⟨by decide, fieldAt_zero_toNat, rfl, fieldAt_zero_toNat, pair16_toNat,
    fun ⟨a, b, c, d, e⟩ => pack_id0_toNat a b c e d,
    fun ⟨a, b, c, d, e⟩ => pack_id2_toNat a b c d e,
    fun ⟨a, b, c, d, e⟩ => pack_btn0_toNat a b c d e,
    fun ⟨a, b, c, d, e, f, g⟩ => pack_btn1_toNat a b c d e f g,
    pair16_axes_toNat, pair16_axes_toNat, pair16_toNat, pair16_toNat, rfl, rfl⟩

/-! ## Reading the port back -/

/-- The upper byte of a payload. -/
def upperByte (w : BitVec 16) : Byte := w.extractLsb' 8 8

/-- The lower byte of a payload. -/
def lowerByte (w : BitVec 16) : Byte := w.extractLsb' 0 8

@[simp] theorem upperByte_pair16 (hi lo : Byte) : upperByte (pair16 hi lo) = hi := by
  apply BitVec.eq_of_toNat_eq
  rw [upperByte, BitVec.extractLsb'_toNat, pair16_toNat, Nat.shiftRight_eq_div_pow]
  omega

@[simp] theorem lowerByte_pair16 (hi lo : Byte) : lowerByte (pair16 hi lo) = lo := by
  apply BitVec.eq_of_toNat_eq
  rw [lowerByte, BitVec.extractLsb'_toNat, pair16_toNat, Nat.shiftRight_eq_div_pow]
  omega

@[simp] theorem lowerByte_fieldAt_zero (v : Byte) : lowerByte (fieldAt v 0) = v := by
  apply BitVec.eq_of_toNat_eq
  rw [lowerByte, BitVec.extractLsb'_toNat, fieldAt_zero_toNat, Nat.shiftRight_eq_div_pow]
  omega

/-- A stick axis in the range of rule R217. -/
def AxisInRange (x : Int) : Prop := -128 ≤ x ∧ x ≤ 127

/-- An axis in range survives its two's complement byte. -/
theorem toInt_axisByte {x : Int} (h : AxisInRange x) : (axisByte x).toInt = x := by
  obtain ⟨hlo, hhi⟩ := h
  rw [axisByte, BitVec.toInt_ofInt, Int.bmod_def]
  omega

/-- The kind and the fields that the annotation port's category, kind and payload stand for
(rules R120 to R122); a combination that no record has reads as one of its neighbours. -/
def readPort (cat kind : BitVec 3) (w : BitVec 16) : Payload :=
  match cat.toNat, kind.toNat with
  | 0, _ => .bit (w.getLsbD 0)
  | 1, _ => .byte (lowerByte w)
  | 2, _ => .stop
  | 3, 0 => .cmd (lowerByte w)
  | 3, _ => .cmdParam (upperByte w) (lowerByte w)
  | 4, 0 => .id0 ⟨w.getLsbD 5, w.getLsbD 4, w.getLsbD 3, w.extractLsb' 1 2, w.getLsbD 0⟩
  | 4, 1 =>
    .id2 ⟨w.getLsbD 7, w.getLsbD 6, w.getLsbD 5, w.extractLsb' 3 2, w.extractLsb' 0 3⟩
  | 4, 2 =>
    .btn0 ⟨w.getLsbD 0, w.getLsbD 1, w.getLsbD 2, w.getLsbD 3, w.getLsbD 4⟩
  | 4, 3 =>
    .btn1 ⟨w.getLsbD 0, w.getLsbD 1, w.getLsbD 2, w.getLsbD 3, w.getLsbD 4, w.getLsbD 5,
      w.getLsbD 6⟩
  | 4, 4 => .stick (upperByte w).toInt (lowerByte w).toInt
  | 4, 5 => .cstick (upperByte w).toInt (lowerByte w).toInt
  | 4, 6 => .trig (upperByte w) (lowerByte w)
  | 4, _ => .origin (upperByte w) (lowerByte w)
  | _, 0 => .rateFatal
  | _, _ => .rateLow

theorem readPort_id0 : ∀ (a b c e : Bool) (d : BitVec 2),
    readPort 4 0 (Payload.id0 ⟨a, b, c, d, e⟩).pack = .id0 ⟨a, b, c, d, e⟩ := by
  decide

theorem readPort_id2 : ∀ (a b c : Bool) (d : BitVec 2) (e : BitVec 3),
    readPort 4 1 (Payload.id2 ⟨a, b, c, d, e⟩).pack = .id2 ⟨a, b, c, d, e⟩ := by
  decide

theorem readPort_btn0 : ∀ a b c d e : Bool,
    readPort 4 2 (Payload.btn0 ⟨a, b, c, d, e⟩).pack = .btn0 ⟨a, b, c, d, e⟩ := by
  decide

theorem readPort_btn1 : ∀ a b c d e f g : Bool,
    readPort 4 3 (Payload.btn1 ⟨a, b, c, d, e, f, g⟩).pack = .btn1 ⟨a, b, c, d, e, f, g⟩ := by
  decide

/-- What the port shows of a payload reads back as that payload. -/
theorem readPort_pack {p : Payload}
    (h : ∀ x y, p = .stick x y ∨ p = .cstick x y → AxisInRange x ∧ AxisInRange y) :
    readPort p.category.code p.kindCode p.pack = p := by
  cases p with
  | bit v => cases v <;> rfl
  | byte v => exact congrArg Payload.byte (lowerByte_fieldAt_zero v)
  | stop => rfl
  | cmd op => exact congrArg Payload.cmd (lowerByte_fieldAt_zero op)
  | cmdParam m r => exact congrArg₂ Payload.cmdParam (upperByte_pair16 m r) (lowerByte_pair16 m r)
  | id0 f => exact readPort_id0 ..
  | id2 f => exact readPort_id2 ..
  | btn0 f => exact readPort_btn0 ..
  | btn1 f => exact readPort_btn1 ..
  | stick x y =>
    obtain ⟨hx, hy⟩ := h x y (.inl rfl)
    simp [readPort, Payload.category, Category.code, Payload.kindCode, Payload.pack,
      toInt_axisByte hx, toInt_axisByte hy]
  | cstick x y =>
    obtain ⟨hx, hy⟩ := h x y (.inr rfl)
    simp [readPort, Payload.category, Category.code, Payload.kindCode, Payload.pack,
      toInt_axisByte hx, toInt_axisByte hy]
  | trig l r => exact congrArg₂ Payload.trig (upperByte_pair16 l r) (lowerByte_pair16 l r)
  | origin x y => exact congrArg₂ Payload.origin (upperByte_pair16 x y) (lowerByte_pair16 x y)
  | rateFatal => rfl
  | rateLow => rfl

/-- Settles O5: the port keeps the span, and its other three values read back as the payload. -/
theorem portTellsRecordsApart : Obligations.PortTellsRecordsApart := by
  rintro ⟨st, fi, p⟩ ⟨st', fi', p'⟩ hrange hport
  simp only [Record.toPort, AnnPort.mk.injEq] at hport
  obtain ⟨hst, hfi, hcat, hkind, hpack⟩ := hport
  have hp : p = p' := by
    rw [← readPort_pack (hrange p (by simp)), ← readPort_pack (hrange p' (by simp)), hcat, hkind,
      hpack]
  rw [hst, hfi, hp]

end Sys2Proof.Machine
end

section
/-! PROOFS. The statements of `40_classifier.md`. -/

namespace Sys2Proof.Machine

/-! ## Edges and comparisons -/

theorem edge_eq_none_of_first {s : State} {d : Bool} (h : s.prevValid = false) :
    s.edge d = .none := by
  simp [State.edge, detectEdge, h]

/-- Settles O18: one case of `detectEdge` for each clause. -/
theorem edgeDetection : Obligations.EdgeDetection :=
  fun _ _ => ⟨edge_eq_falling, edge_eq_rising, edge_eq_none_of_first⟩

/-- Settles O28: a positive factor cancels from both comparisons. -/
theorem classifierIsSelfClocking : Obligations.ClassifierIsSelfClocking := by
  intro k high low hk
  constructor
  · simp only [bitValue, Nat.mul_lt_mul_left hk]
  · simp only [idleReached, Nat.mul_left_comm _ k, Nat.mul_le_mul_left_iff hk]

theorem bitValue_eq_decide_le (high low : Nat) : bitValue high low = decide (low ≤ high) := by
  simp only [bitValue, Nat.not_lt]

theorem bitValue_eq_not_decide_lt (high low : Nat) : bitValue high low = !decide (high < low) :=
  decide_not

theorem gapExceeded_iff {riseValid : Bool} {rise gap t : Nat} :
    gapExceeded riseValid rise gap t = true ↔ riseValid = true ∧ gap < t - rise := by
  simp [gapExceeded]

/-! ## The desync check -/

/-- Settles O24: the two cases of the check. -/
theorem desyncCheckDiscardsBits : Obligations.DesyncCheckDiscardsBits := by
  intro t s
  rcases desyncCheck_cases t s with ⟨hgap, h⟩ | ⟨hgap, h⟩
  · rw [h, if_pos (gapExceeded_iff.1 hgap)]
  · rw [h, if_neg (mt gapExceeded_iff.2 (by simp [hgap]))]

/-- A falling edge after too long a gap discards the queued bits (rule R136). -/
theorem openCell_bitq_of_lt {t : Nat} {s : State} (hv : s.riseValid = true)
    (hgap : s.gap < t - s.rise) : (openCell t s).bitq = [] := by
  rw [openCell, desyncCheckDiscardsBits, if_pos ⟨hv, hgap⟩]

/-- The end of a tick leaves an empty `BITQ` empty: the timeout only clears queues. -/
theorem finishTick_bitq_of_empty {d : Bool} {t : Nat} {s : State} (h : s.bitq = []) :
    (finishTick d t s).bitq = [] := by
  rw [finishTick_bitq]
  rcases timeoutCheck_cases t s with ⟨-, h'⟩ | ⟨-, h'⟩ <;> simp [h', h]

/-- A tick that opens a cell after too long a gap ends with `BITQ` empty, whatever the bit that it
closes did before (decision D9). -/
theorem Keeps.finishTick_bitq_of_lt {d : Bool} {t : Nat} {s u : State} (h : Keeps s u)
    (hv : s.riseValid = true) (hgap : s.gap < t - s.rise) :
    (finishTick d t (openCell t u)).bitq = [] :=
  finishTick_bitq_of_empty
    (openCell_bitq_of_lt (h.riseValid.trans hv) (by rw [h.gap, h.rise]; exact hgap))

/-! ## The classifier, phase by phase -/

/-- Settles O19: the rows of SEEK_FALL. -/
theorem fallingEdgeOpensCell : Obligations.FallingEdgeOpensCell := by
  intro s hc
  refine ⟨by simp [classify, hc, openCell], fun e he => ?_⟩
  cases e with
  | falling => exact absurd rfl he
  | none => simp [classify, hc]
  | rising => simp [classify, hc]

/-- Settles O20: the row of SEEK_RISE. -/
theorem risingEdgeMeasuresLow : Obligations.RisingEdgeMeasuresLow := by
  intro s hc
  simp [classify, hc, recordRise]

/-- The row of SEEK_EVENT without a falling edge (rule R134). -/
theorem classify_of_no_fall {e : Edge} {s : State} (hc : s.cph = .seekEvent) (he : e ≠ .falling) :
    classify e s =
      if idleReached (s.sidx - s.rise) s.low then closeByIdle s.sidx s else .next s := by
  cases e with
  | falling => exact absurd rfl he
  | none => simp only [classify, hc]
  | rising => simp only [classify, hc]

/-! ## The sample that closes a cell, or does not -/

/-- Settles O21: the tick of the closing edge, and what a classified bit keeps and emits. -/
theorem fallingEdgeClassifiesCell : Obligations.FallingEdgeClassifiesCell := by
  intro s acts hs hc hv hp hn b
  have hstep : step s = andThen (emitBit b s.fall s.sidx { s with host := acts }) fun u =>
      .next (finishTick false s.sidx (openCell s.sidx u)) := by
    rw [step_of_closeByFall hs hc hv hp hn, bitValue_eq_not_decide_lt]
  obtain ⟨u, hu, hbit⟩ := emitBit_cases b s.fall s.sidx { s with host := acts }
  obtain ⟨more, hout, -⟩ := hbit.out
  have hkeeps := hbit.keeps
  refine ⟨hstep, _, more, by rw [hstep, hu, andThen_next], ?_, ?_, ?_, ?_, ?_,
    fun hvalid hgap => ?_⟩
  · rw [finishTick_out, openCell_out, hout]
  · rw [finishTick_fall, openCell_fall]
  · rw [finishTick_cph, openCell_cph]
  · rw [finishTick_rise, openCell_rise, hkeeps.rise]
  · rw [finishTick_low, openCell_low, hkeeps.low]
  · exact hkeeps.finishTick_bitq_of_lt hvalid hgap

/-- Settles O23: at the idle point the high phase is not shorter than the low phase, so the falling
edge classifies a 1. -/
theorem fallingEdgeBeatsIdle : Obligations.FallingEdgeBeatsIdle := by
  intro s acts hs hc hv hp hn htie
  obtain ⟨-, t, more, hstep, hout, hfall, hcph, -⟩ :=
    fallingEdgeClassifiesCell s acts hs hc hv hp hn
  have hhigh : ¬ s.sidx - s.rise < s.low := by omega
  rw [decide_eq_false hhigh] at hout
  exact ⟨t, more, hstep, hout, hcph, hfall⟩

/-- Settles O22: on either side of the idle point the tick is known as one equation. -/
theorem idleClosesCell : Obligations.IdleClosesCell := by
  intro s d acts hs hc he hn
  obtain ⟨hstarted, hfatal⟩ := hs
  have hstep := step_of_decoding_eq hstarted hfatal hn
  rw [classify_of_no_fall (s := { s with host := acts }) hc he] at hstep
  refine ⟨fun hidle => ?_, fun hopen => ?_⟩
  · have hstep : step s = andThen (emitBit true s.fall s.sidx { s with host := acts }) fun u =>
        .next (finishTick d s.sidx { u with cph := .seekFall }) := by
      rw [hstep, if_pos (idleReached_iff.2 hidle), closeByIdle, andThen_assoc]
      rfl
    obtain ⟨u, hu, hbit⟩ := emitBit_cases true s.fall s.sidx { s with host := acts }
    obtain ⟨more, hout, -⟩ := hbit.out
    have hkeeps := hbit.keeps
    refine ⟨hstep, _, more, by rw [hstep, hu, andThen_next], ?_, ?_, ?_, ?_, ?_⟩
    · rw [finishTick_out, hout]
    · rw [finishTick_cph]
    · rw [finishTick_fall, hkeeps.fall]
    · rw [finishTick_rise, hkeeps.rise]
    · rw [finishTick_low, hkeeps.low]
  · have hidle : idleReached (s.sidx - s.rise) s.low ≠ true := by
      simp [idleReached_eq_false_iff.2 hopen]
    rw [if_neg hidle, andThen_next] at hstep
    exact ⟨_, hstep, by simp, by simp [hc], by simp, by simp, by simp⟩

/-! ## The transition table -/

/-- Of the records a classified bit appends, its own is the only one of a bit. -/
theorem BitEffect.bitRecords {b : Bool} {st fi : Nat} {s t : State} (h : BitEffect b st fi s t) :
    ∃ rs, t.out = s.out ++ rs ∧
      rs.filter (fun r => r.payload.category = .bit) = [⟨st, fi, .bit b⟩] := by
  obtain ⟨more, hout, hmore⟩ := h.out
  refine ⟨_, hout, ?_⟩
  rw [List.filter_cons_of_pos (by simp [Payload.category]),
    List.filter_eq_nil_iff.2 (by simpa using hmore)]

/-- Settles O25: one row of the table for each thing the classifier can do. -/
theorem classifierTransitionTable : Obligations.ClassifierTransitionTable := by
  intro s t d acts hs hn hstep
  obtain ⟨hstarted, hfatal⟩ := hs
  obtain ⟨u, hu, heffect⟩ := step_of_decoding hstarted hfatal hn
  obtain rfl : finishTick d s.sidx u = t := by simpa [hu] using hstep
  cases heffect with
  | unchanged hrow =>
    rcases hrow with ⟨hc, he⟩ | ⟨hc, he⟩ | ⟨hc, he, hi⟩
    · have hphase : s.cph = .seekFall := hc
      simp [hphase, he]
    · have hphase : s.cph = .seekRise := hc
      simp [hphase, he]
    · have hphase : s.cph = .seekEvent := hc
      have hopen := idleReached_eq_false_iff.1 hi
      simp [hphase, he, hopen]
  | opened hc he =>
    have hphase : s.cph = .seekFall := hc
    have hdiscard :=
      (Keeps.refl { s with host := acts }).finishTick_bitq_of_lt (d := d) (t := s.sidx)
    simpa [hphase, he] using hdiscard
  | rose hc he =>
    have hphase : s.cph = .seekRise := hc
    simp [hphase, he]
  | closedByFall hc he hbit =>
    have hphase : s.cph = .seekEvent := hc
    obtain ⟨rs, hout, hbits⟩ := hbit.bitRecords
    have hkeeps := hbit.keeps
    have hdiscard := hkeeps.finishTick_bitq_of_lt (d := d) (t := s.sidx)
    rw [bitValue_eq_decide_le] at hbits
    simpa [hphase, he, hout, hbits, hkeeps.rise, hkeeps.riseValid, hkeeps.low] using hdiscard
  | closedByIdle hc he hi hbit =>
    have hphase : s.cph = .seekEvent := hc
    obtain ⟨rs, hout, hbits⟩ := hbit.bitRecords
    have hkeeps := hbit.keeps
    have hidle := idleReached_iff.1 hi
    simp [hphase, he, hidle, hout, hbits, hkeeps.fall, hkeeps.rise, hkeeps.riseValid, hkeeps.low]

end Sys2Proof.Machine
end

section
/-! PROOFS. The statements of `41_assembler.md`, and the step that completes a command. -/

namespace Sys2Proof.Machine

/-! ## The assembler, rule by rule -/

/-- Settles O31: `emitByte` with its two updates written out. -/
theorem everyByteIsAnnotatedAndQueued : Obligations.EveryByteIsAnnotatedAndQueued :=
  fun _ _ _ _ => rfl

theorem acceptBit_of_stopSlot {b : Bool} {st fi : Nat} {s : State} (h : inStopSlot s = true) :
    acceptBit b st fi s = .next (stopSlot b st fi s) := by
  rw [acceptBit, if_pos h]

/-- Outside a stop slot a bit is queued, and assembled when it is at least the eighth (rule R160). -/
theorem acceptBit_of_queueing {b : Bool} {st fi : Nat} {s : State} (h : inStopSlot s = false) :
    acceptBit b st fi s =
      if 8 ≤ s.bitq.length + 1 then assemble (pushBit ⟨b, st, fi⟩ s)
      else .next (pushBit ⟨b, st, fi⟩ s) := by
  rw [acceptBit, h, if_neg Bool.false_ne_true, assembleIfFull, pushBit_bitq, List.length_append,
    List.length_singleton]

/-- Settles O29: the two kinds of phase, and the two queue lengths of a queueing phase. -/
theorem acceptBitQueuesOrStops : Obligations.AcceptBitQueuesOrStops := by
  intro s b st fi
  refine ⟨fun hstop => acceptBit_of_stopSlot (inStopSlot_iff.2 hstop), fun hqueue => ?_⟩
  have haccept := acceptBit_of_queueing (b := b) (st := st) (fi := fi)
    (inStopSlot_eq_false_iff.2 hqueue)
  refine ⟨fun hshort => ?_, fun hfull => ?_⟩
  · rw [haccept, if_neg (Nat.not_le.2 hshort), pushBit]
  · rw [haccept, if_pos hfull, pushBit]

theorem packSum_lt (b0 b1 b2 b3 b4 b5 b6 b7 : Bool) : packSum b0 b1 b2 b3 b4 b5 b6 b7 < 2 ^ 8 := by
  have hbit : ∀ b : Bool, b.toNat ≤ 1 := Bool.toNat_le
  unfold packSum
  linarith only [hbit b0, hbit b1, hbit b2, hbit b3, hbit b4, hbit b5, hbit b6, hbit b7]

/-- A packed byte's value is the weighted sum itself: nothing overflows (rule R161). -/
theorem packByte_toNat (b0 b1 b2 b3 b4 b5 b6 b7 : Bool) :
    (packByte b0 b1 b2 b3 b4 b5 b6 b7).toNat = packSum b0 b1 b2 b3 b4 b5 b6 b7 := by
  rw [packByte, BitVec.toNat_ofNat, Nat.mod_eq_of_lt (packSum_lt ..)]

theorem assemble_of_eight {s : State} {b0 b1 b2 b3 b4 b5 b6 b7 : BitEntry} {rest : List BitEntry}
    (hq : s.bitq = b0 :: b1 :: b2 :: b3 :: b4 :: b5 :: b6 :: b7 :: rest) :
    assemble s =
      emitByte (packByte b0.val b1.val b2.val b3.val b4.val b5.val b6.val b7.val)
        b0.start b7.finish { s with bitq := rest } := by
  simp only [assemble, hq]

/-- Settles O30: the byte is the packed one; its bits are read back by unpacking. -/
theorem assemblyIsMostSignificantFirst : Obligations.AssemblyIsMostSignificantFirst := by
  intro s b0 b1 b2 b3 b4 b5 b6 b7 rest hq
  refine ⟨_, assemble_of_eight hq, ?_, byteBits_packByte ..⟩
  rw [packByte_toNat, packSum]
  simp only [Nat.mul_comm]

/-! ## The step that completes a command -/

/-- The eighth bit in INITIAL, where it completes a command, runs that command on the state with the
bit annotated, and the byte annotated and queued (rules R160 to R165, R171). -/
theorem emitBit_runs_command {s : State} {b0 b1 b2 b3 b4 b5 b6 : BitEntry} {b : Bool}
    {st fi : Nat} {i : Instr} (hph : s.ph = .initial) (hq : s.bitq = [b0, b1, b2, b3, b4, b5, b6])
    (hd : decode (queuedBytes s ++
      [packByte b0.val b1.val b2.val b3.val b4.val b5.val b6.val b]) = .command i) :
    emitBit b st fi s = exec i (withByte
      (packByte b0.val b1.val b2.val b3.val b4.val b5.val b6.val b) b0.start fi []
      (withBit b st fi s)) := by
  rw [emitBit_eighth hph hq]
  exact initialStep_of_command (by simpa [queuedBytes] using hd)

/-- Settles O16: either closing event hands the bit on, and the bit runs the command. -/
theorem stepRunsDecodedCommand : Obligations.StepRunsDecodedCommand := by
  intro s acts i b0 b1 b2 b3 b4 b5 b6 b v hs hc hv hp hph hq hpack hd ready
  subst hpack
  have hready : withByte (packByte b0.val b1.val b2.val b3.val b4.val b5.val b6.val b) b0.start
      s.sidx [] (withBit b s.fall s.sidx { s with host := acts }) = ready := by
    simp [ready, withByte, withBit, emit, pushByte]
  have hbit : emitBit b s.fall s.sidx { s with host := acts } = exec i ready := by
    rw [← hready]
    exact emitBit_runs_command (s := { s with host := acts }) hph hq hd
  refine ⟨fun hn hvalue => ?_, fun hn hone hidle => ?_⟩
  · rw [step_of_closeByFall hs hc hv hp hn, ← hvalue, hbit]
  · rw [step_of_closeByIdle hs hc hidle hn, ← hone, hbit]

end Sys2Proof.Machine
end

section
/-! PROOFS. What the decoder reads from the byte a command begins with, for the statements of
`42_framing.md`. -/

namespace Sys2Proof

/-- An opcode byte waits while fewer bytes are queued than its command length (rule R173). -/
theorem decode_of_short {o : Opcode} {ps : List Byte} (h : (o.byte :: ps).length < o.cmdLen) :
    decode (o.byte :: ps) = .awaiting o := by
  cases hd : decode (o.byte :: ps) with
  | command i =>
    have hop : o = i.opcode := by simpa using decode_command_head hd
    have hl := decode_command_length hd
    rw [← hop] at hl
    omega
  | awaiting o' =>
    obtain ⟨hbyte, -, -⟩ := decode_awaiting hd
    have hop : o = o' := by simpa using ofByte_eq_some.2 hbyte
    rw [hop]
  | unknownOpcode b => simpa using (decode_unknown hd).1
  | empty => exact absurd hd decode_ne_empty

/-- A byte that is none of the seven opcodes is read as itself, whatever follows it (rule R101). -/
theorem decode_of_unrecognised {b : Byte} {rest : List Byte}
    (h : b ∉ [0x00#8, 0xFF#8, 0x41#8, 0x42#8, 0x43#8, 0x40#8, 0x54#8]) :
    decode (b :: rest) = .unknownOpcode b := by
  obtain ⟨-, -, -, -, -, -, -, -, -, -, hunknown⟩ := opcodeTableAsSpecified
  exact hunknown b h rest

theorem cmdLen_pos (o : Opcode) : 1 ≤ o.cmdLen := by
  cases o <;> decide

end Sys2Proof
end

section
/-! PROOFS. The statements of `42_framing.md` about commands: their effects, and the bytes in INITIAL
that complete none. -/

namespace Sys2Proof.Machine

/-! ## Complete commands -/

/-- Every command but STATUS reports its opcode byte only (rules R174, R181). -/
theorem commandRecords_of_ne_status {i : Instr} {e : ByteEntry} {rest : List ByteEntry}
    (hi : i.opcode ≠ .status) :
    commandRecords i (e :: rest) = [⟨e.start, e.finish, .cmd i.opcode.byte⟩] := by
  cases i with
  | status mode rumble => exact absurd rfl hi
  | _ => rfl

/-- The whole effect of every command but STATUS, once its bytes are queued (rule R174). -/
theorem exec_of_ne_status {i : Instr} {s : State} {e : ByteEntry} {rest : List ByteEntry}
    (hi : i.opcode ≠ .status) (h : s.byteq = e :: rest) (hl : i.opcode.cmdLen ≤ rest.length + 1) :
    exec i s = .next
      { s with
        cmd := ⟨i.opcode.byte, e.start⟩, expLen := i.opcode.respLen, byteq := []
        ph := .awaitCommandStop
        out := s.out ++ [⟨e.start, e.finish, .cmd i.opcode.byte⟩] } := by
  rw [exec_of_queued h (by simpa [h] using hl), commandDone, h, commandRecords_of_ne_status hi]

/-- Settles O32: both are one byte long and have a response of three. -/
theorem probeAndResetComplete : Obligations.ProbeAndResetComplete :=
  fun _ _ rest h =>
    have hl : 1 ≤ rest.length + 1 := Nat.le_add_left 1 _
    ⟨exec_of_ne_status (i := .probe) (by decide) h hl,
      exec_of_ne_status (i := .reset) (by decide) h hl⟩

/-- Settles O33: all three are one byte long and have a response of ten. -/
theorem tenByteCommandsComplete : Obligations.TenByteCommandsComplete :=
  fun _ _ rest h =>
    have hl : 1 ≤ rest.length + 1 := Nat.le_add_left 1 _
    ⟨exec_of_ne_status (i := .origin) (by decide) h hl,
      exec_of_ne_status (i := .calib) (by decide) h hl,
      exec_of_ne_status (i := .statusl) (by decide) h hl⟩

/-- Settles O34: three queued bytes are STATUS's command length, and its records are two. -/
theorem statusCompletes : Obligations.StatusCompletes := by
  intro s e p1 p2 rest mode rumble h
  have hl : (Instr.status mode rumble).opcode.cmdLen ≤ s.byteq.length := by
    rw [h]
    exact Nat.le_add_left 3 _
  rw [exec_of_queued h hl, commandDone, h]
  rfl

/-- Settles O35: three queued bytes are KBD's command length. -/
theorem keyboardCompletes : Obligations.KeyboardCompletes :=
  fun _ _ _ _ _ param1 param2 h =>
    exec_of_ne_status (i := .kbd param1 param2) (Opcode.noConfusion ·) h (Nat.le_add_left 3 _)

/-- Settles O36: a command with all its bytes queued completes, and any other does nothing. -/
theorem commandFrame : Obligations.CommandFrame := by
  intro i s
  rcases Nat.lt_or_ge s.byteq.length i.opcode.cmdLen with hshort | hqueued
  · exact ⟨s, [], exec_of_short hshort, rfl, by simp, by simp⟩
  · have hne : s.byteq ≠ [] :=
      List.ne_nil_of_length_pos ((cmdLen_pos i.opcode).trans hqueued)
    obtain ⟨e, rest, hq⟩ := List.exists_cons_of_ne_nil hne
    exact ⟨commandDone i e s, commandRecords i s.byteq, exec_of_queued hq hqueued, rfl, rfl,
      fun _ hr => commandRecords_category hr⟩

/-! ## Bytes in INITIAL that complete no command -/

/-- A three-byte opcode with fewer than three bytes queued waits (rule R173). -/
theorem initialStep_of_short {s : State} {e : ByteEntry} {rest : List ByteEntry} {o : Opcode}
    (h : s.byteq = e :: rest) (he : e.val = o.byte) (hl : rest.length + 1 < o.cmdLen) :
    initialStep s = .next s := by
  refine initialStep_of_awaiting (o := o) ?_
  rw [queuedBytes, h, List.map_cons, he]
  exact decode_of_short (by simpa using hl)

/-- Settles O37: too few bytes for the instruction, and too few behind either three-byte opcode. -/
theorem shortCommandWaits : Obligations.ShortCommandWaits := by
  refine ⟨fun i s hl => exec_of_short hl, fun s e rest hq hl hop => ?_⟩
  have hl : rest.length + 1 < 3 := by omega
  rcases hop with hstatus | hkbd
  · exact initialStep_of_short (o := .status) hq hstatus hl
  · exact initialStep_of_short (o := .kbd) hq hkbd hl

theorem initialStep_of_unknown {s : State} {b : Byte} (h : decode (queuedBytes s) = .unknownOpcode b) :
    initialStep s = .next { s with byteq := s.byteq.tail } := by
  simp [initialStep, h]

/-- Settles O38: the decoder recognises nothing at the head, and the event removes it. -/
theorem unknownOpcodeIsDiscarded : Obligations.UnknownOpcodeIsDiscarded := by
  intro s e rest hq hop
  have hd : decode (queuedBytes s) = .unknownOpcode e.val := by
    rw [queuedBytes, hq]
    exact decode_of_unrecognised hop
  rw [initialStep_of_unknown hd, hq, List.tail_cons]

end Sys2Proof.Machine
end

section
/-! PROOFS. The statements of `42_framing.md` about stop slots, responses, the timeout and the moves of
the protocol phase. -/

namespace Sys2Proof.Machine

/-! ## Stop slots -/

/-- In a stop slot a bit has its record and is then judged as the stop (rules R137, R164). -/
theorem emitBit_of_stopSlot {b : Bool} {st fi : Nat} {s : State}
    (h : s.ph = .awaitCommandStop ∨ s.ph = .awaitResponseStop) :
    emitBit b st fi s = .next (stopSlot b st fi (withBit b st fi s)) :=
  acceptBit_of_stopSlot (inStopSlot_iff.2 h)

theorem stopSlot_true_of_awaitCommandStop {st fi : Nat} {s : State} (h : s.ph = .awaitCommandStop) :
    stopSlot true st fi s = commandStop st fi s := by
  simp [stopSlot, h]

theorem stopSlot_true_of_awaitResponseStop {st fi : Nat} {s : State}
    (h : s.ph = .awaitResponseStop) : stopSlot true st fi s = responseStop st fi s := by
  simp [stopSlot, h]

theorem stopSlot_false (st fi : Nat) (s : State) : stopSlot false st fi s = s := rfl

/-- Settles O40: the bit's record, and then the command stop's. -/
theorem commandStopAccepted : Obligations.CommandStopAccepted := by
  intro s st fi hph
  rw [emitBit_of_stopSlot (.inl hph), stopSlot_true_of_awaitCommandStop (by exact hph)]
  simp [commandStop, clearQueues, emit]

/-- Settles O41: the bit's record, and then the response stop's. -/
theorem responseStopAccepted : Obligations.ResponseStopAccepted := by
  intro s st fi hph
  rw [emitBit_of_stopSlot (.inr hph), stopSlot_true_of_awaitResponseStop (by exact hph)]
  simp [responseStop, clearQueues, emit]

/-- Settles O42: the bit's record is all. -/
theorem stopSlotZeroIsIgnored : Obligations.StopSlotZeroIsIgnored := by
  intro s st fi hph
  rw [emitBit_of_stopSlot hph, stopSlot_false, withBit, emit]

/-! ## Response bytes -/

theorem frameStep_of_awaitResponseBytes {s : State} (h : s.ph = .awaitResponseBytes) :
    frameStep s = .next (responseStep s) := by
  simp [frameStep, h]

/-- Settles O43: the two sides of the expected length; a decoder leaves the bytes queued. -/
theorem responseIsDecodedAtItsLength : Obligations.ResponseIsDecodedAtItsLength := by
  intro s hph
  rw [frameStep_of_awaitResponseBytes hph, responseStep]
  refine ⟨fun hshort => by rw [if_neg (Nat.not_le.2 hshort)], fun hfull => ⟨?_, ?_⟩⟩
  · rw [if_pos hfull]
  · obtain ⟨-, hbyteq, -⟩ := decodeResponse_frame s
    exact hbyteq

/-! ## The response timeout -/

/-- Settles O44: the two cases of the test; dividing by the scale rounds up. -/
theorem timeoutAbortsResponse : Obligations.TimeoutAbortsResponse := by
  intro t s
  refine ⟨?_, by omega, by omega⟩
  rcases timeoutCheck_cases t s with ⟨hdue, h⟩ | ⟨hdue, h⟩
  · rw [h, if_pos (timeoutDue_iff.1 hdue)]
  · rw [h, if_neg (mt timeoutDue_iff.2 (by simp [hdue]))]

/-- A tick that ends in AWAIT_RESPONSE_BYTES found that phase before its timeout test, with the
timeout not yet due. -/
theorem finishTick_awaitResponseBytes {d : Bool} {n : Nat} {u : State}
    (h : (finishTick d n u).ph = .awaitResponseBytes) :
    u.ph = .awaitResponseBytes ∧ 1000 * (n - u.tref) < u.rate := by
  rw [finishTick_ph] at h
  rcases timeoutCheck_cases n u with ⟨-, htimeout⟩ | ⟨hdue, hsame⟩
  · simp [htimeout] at h
  · rw [hsame] at h
    refine ⟨h, Nat.not_le.1 fun hreached => ?_⟩
    simp [timeoutDue_iff.2 ⟨h, hreached⟩] at hdue

/-- Settles O45: the timeout test is the last of a tick, and no sample changes `RATE`. -/
theorem noResponseOutlivesItsTimeout : Obligations.NoResponseOutlivesItsTimeout := by
  rintro s d acts ⟨hstarted, hfatal⟩ hn
  obtain ⟨u, hstep, heffect⟩ := step_of_decoding hstarted hfatal hn
  refine ⟨_, hstep, fun hph => ?_⟩
  obtain ⟨-, -, -, -, hrate, -⟩ := heffect.session
  obtain ⟨-, hwithin⟩ := finishTick_awaitResponseBytes hph
  rwa [finishTick_tref, ← hrate]

/-! ## The protocol phase -/

/-- The phase after `p` in a frame (rule R195). -/
def ProtocolPhase.succ : ProtocolPhase → ProtocolPhase
  | .initial => .awaitCommandStop
  | .awaitCommandStop => .awaitResponseBytes
  | .awaitResponseBytes => .awaitResponseStop
  | .awaitResponseStop => .initial

theorem ByteEffect.ph {s t : State} (h : ByteEffect s t) : t.ph = s.ph ∨ t.ph = s.ph.succ := by
  cases h with
  | completed _ hph _ _ => exact .inr (by rw [hph]; rfl)
  | decoded hph _ => exact .inr (by rw [hph]; rfl)
  | _ => exact .inl rfl

/-- A bit moves the phase at most to the next one of the frame. -/
theorem BitEffect.ph {b : Bool} {st fi : Nat} {s t : State} (h : BitEffect b st fi s t) :
    t.ph = s.ph ∨ t.ph = s.ph.succ := by
  cases h with
  | commandStop hph _ => exact .inr (by rw [hph]; rfl)
  | responseStop hph _ => exact .inr (by rw [hph]; rfl)
  | byte _ _ ht => exact ht.ph
  | _ => exact .inl rfl

theorem ClassifyEffect.ph {e : Edge} {s u : State} (h : ClassifyEffect e s u) :
    u.ph = s.ph ∨ u.ph = s.ph.succ := by
  rcases h.frame with hsame | ⟨b, t, hbit, hsame⟩
  · exact .inl hsame.ph
  · rw [hsame.ph]
    exact hbit.ph

/-- The end of a tick moves the phase only by the timeout (rule R192). -/
theorem finishTick_ph_cases (d : Bool) (n : Nat) (u : State) :
    (finishTick d n u).ph = u.ph ∨
      (u.ph = .awaitResponseBytes ∧ (finishTick d n u).ph = .initial) := by
  rw [finishTick_ph]
  rcases timeoutCheck_cases n u with ⟨hdue, h⟩ | ⟨-, h⟩
  · exact .inr ⟨(timeoutDue_iff.1 hdue).1, by rw [h]⟩
  · exact .inl (by rw [h])

theorem succ_eq_awaitResponseBytes {p : ProtocolPhase} :
    p.succ = .awaitResponseBytes ↔ p = .awaitCommandStop := by
  cases p <;> simp [ProtocolPhase.succ]

/-- A sample moves the phase to the next one of the frame, or by the timeout to INITIAL: from
AWAIT_RESPONSE_BYTES, or from the command stop accepted in the same tick (rule R196 (a)). -/
theorem step_sample_ph {s t : State} {d : Bool} {acts : List HostAct} (hn : s.SampleNext d acts)
    (h : step s = .next t) :
    t.ph = s.ph ∨ t.ph = s.ph.succ ∨
      ((s.ph = .awaitCommandStop ∨ s.ph = .awaitResponseBytes) ∧ t.ph = .initial) := by
  rcases step_sample_cases hn h with rfl | ⟨-, u, rfl, heffect⟩
  · exact .inl rfl
  have hbit : u.ph = s.ph ∨ u.ph = s.ph.succ := heffect.ph
  rcases finishTick_ph_cases d s.sidx u with hsame | ⟨hawait, hinitial⟩
  · rw [hsame]
    exact hbit.imp_right .inl
  · refine .inr (.inr ⟨?_, hinitial⟩)
    rw [hawait] at hbit
    rcases hbit with hph | hph
    · exact .inr hph.symm
    · exact .inl (succ_eq_awaitResponseBytes.1 hph.symm)

/-- Settles O47: a sample's moves, read off for each of the four phases. -/
theorem phaseTransitions : Obligations.PhaseTransitions := by
  intro s t d acts hn h
  have hmoves := step_sample_ph hn h
  refine ⟨fun hph => ?_, fun hph => ?_, fun hph => ?_, fun hph => ?_⟩ <;>
    simpa [hph, ProtocolPhase.succ] using hmoves

end Sys2Proof.Machine
end

section
/-! PROOFS. The statements of `43_response_decoders.md`. -/

namespace Sys2Proof.Machine

/-! ## The layouts' fields -/

/-- Bits 4 and 3 as arithmetic on the byte's value (rule R9). -/
theorem slice43_eq_ofNat (v : Byte) : slice43 v = BitVec.ofNat 2 (v.toNat / 8) := by
  apply BitVec.eq_of_toNat_eq
  simp [slice43, Nat.shiftRight_eq_div_pow]

/-- Bits 2 to 0 as arithmetic on the byte's value (rule R9). -/
theorem slice20_eq_ofNat (v : Byte) : slice20 v = BitVec.ofNat 3 v.toNat := by
  apply BitVec.eq_of_toNat_eq
  simp [slice20]

/-- Controller type GC, read off the value of identify byte0 (rules R103, R219). -/
theorem controllerType_eq_one_iff (v : Byte) : controllerType v = 1#2 ↔ v.toNat / 8 % 4 = 1 := by
  rw [controllerType, slice43_eq_ofNat, ← BitVec.toNat_inj, BitVec.toNat_ofNat]
  rfl

theorem stickAxis_inRange (raw : Byte) : AxisInRange (stickAxis raw) := by
  have hraw := raw.isLt
  unfold AxisInRange stickAxis
  omega

/-- Flipping a byte's highest bit subtracts 128 modulo 256. -/
theorem xor_0x80_eq_sub : ∀ raw : Byte, raw ^^^ 0x80#8 = raw - 0x80#8 := by decide

/-- Settles O54: the axis is packed modulo 256, where subtracting 128 flips the highest bit. -/
theorem stickAxisIsOffsetBinary : Obligations.StickAxisIsOffsetBinary := by
  intro raw
  obtain ⟨hlo, hhi⟩ := stickAxis_inRange raw
  refine ⟨hlo, hhi, ?_⟩
  have hbyte := axisByte_toNat (stickAxis raw)
  rw [stickAxis] at hbyte ⊢
  rw [xor_0x80_eq_sub]
  apply BitVec.eq_of_toNat_eq
  rw [BitVec.toNat_sub, BitVec.toNat_ofNat]
  omega

/-! ## The dispatch on the latched opcode (rule R210) -/

theorem decodeResponse_of_identifyOp {s : State} (hop : s.cmd.op = 0x00#8 ∨ s.cmd.op = 0xFF#8) :
    decodeResponse s = decodeIdentify s := by
  rcases hop with hop | hop
  · simp [decodeResponse, (ofByte_eq_some (o := .probe)).2 hop, rspProbe]
  · simp [decodeResponse, (ofByte_eq_some (o := .reset)).2 hop, rspReset]

theorem decodeResponse_of_statusOp {s : State}
    (hop : s.cmd.op = 0x40#8 ∨ s.cmd.op = 0x41#8 ∨ s.cmd.op = 0x42#8 ∨ s.cmd.op = 0x43#8) :
    decodeResponse s = decodeStatus s := by
  rcases hop with hop | hop | hop | hop
  · simp [decodeResponse, (ofByte_eq_some (o := .status)).2 hop, rspStatus]
  · simp [decodeResponse, (ofByte_eq_some (o := .origin)).2 hop, rspOrigin]
  · simp [decodeResponse, (ofByte_eq_some (o := .calib)).2 hop, rspCalib]
  · simp [decodeResponse, (ofByte_eq_some (o := .statusl)).2 hop, rspStatusl]

/-- Settles O52: the dispatch reaches KBD's rule, which answers the state it is given. -/
theorem keyboardResponseNotDecoded : Obligations.KeyboardResponseNotDecoded := by
  intro s hop
  simp [decodeResponse, (ofByte_eq_some (o := .kbd)).2 hop, rspKbd]

/-- Settles O53: a decoder appends field records, and may then write the poll mode. -/
theorem decodersOnlyAnnotate : Obligations.DecodersOnlyAnnotate := by
  intro s
  rcases decodeResponse_cases s with ⟨rs, -, hfield, h⟩ | ⟨e, u, -, ⟨rs, -, hfield, hu⟩, -, h⟩
  · exact ⟨rs, by rw [h], fun r hr => (hfield r hr).1⟩
  · exact ⟨rs, by rw [h, hu], fun r hr => (hfield r hr).1⟩

/-! ## The identify response -/

/-- The ID0 record of response byte0 (rule R219). -/
def id0Record (c : ByteEntry) : Record := ⟨c.start, c.finish, .id0 (id0Of c.val)⟩

/-- The ID2 record of response byte2 (rule R220). -/
def id2Record (c : ByteEntry) : Record := ⟨c.start, c.finish, .id2 (id2Of c.val)⟩

theorem emitId0_of_getElem {s : State} {c : ByteEntry} (h : s.byteq[0]? = some c) :
    emitId0 s = { s with out := s.out ++ [id0Record c] } :=
  emitField_of_getElem _ h h

theorem emitId2_of_getElem {s : State} {c : ByteEntry} (h : s.byteq[2]? = some c) :
    emitId2 s =
      { s with
        out := s.out ++ [id2Record c], pollMode := slice20 c.val, pollModeValid := true } := by
  simp [emitId2, h, emit, id2Record]

theorem reportsGc_of_getElem {s : State} {c : ByteEntry} (h : s.byteq[0]? = some c) :
    reportsGc s = true ↔ c.val.toNat / 8 % 4 = 1 := by
  simp [reportsGc, h, controllerType_eq_one_iff]

/-- Settles O49: the two controller types of rule R211; byte2 is read for type GC only. -/
theorem identifyResponseDecoded : Obligations.IdentifyResponseDecoded := by
  intro s c0 c1 c2 rest hop hq v w id0 id2
  have h0 : s.byteq[0]? = some c0 := by rw [hq]; rfl
  have h2 : s.byteq[2]? = some c2 := by rw [hq]; rfl
  have hid0 : id0Record c0 = id0 := by
    rw [id0Record, id0Of, controllerType, slice43_eq_ofNat]
    rfl
  have hid2 : id2Record c2 = id2 := by
    rw [id2Record, id2Of, slice43_eq_ofNat, slice20_eq_ofNat]
    rfl
  rw [decodeResponse_of_identifyOp hop, decodeIdentify, emitId0_of_getElem h0, ← hid0]
  by_cases hgc : v.toNat / 8 % 4 = 1
  · rw [if_pos ((reportsGc_of_getElem h0).2 hgc), if_pos hgc,
      emitId2_of_getElem (c := c2), ← hid2, slice20_eq_ofNat, List.append_assoc]
    · rfl
    · exact h2
  · rw [if_neg (mt (reportsGc_of_getElem h0).1 hgc), if_neg hgc]

/-! ## The status layout -/

/-- The five field records of the status layout, in ascending byte order (rule R213). -/
def statusRecords (c0 c1 c2 c3 c4 c5 c6 c7 : ByteEntry) : List Record :=
  [⟨c0.start, c0.finish, .btn0 (btn0Of c0.val)⟩,
    ⟨c1.start, c1.finish, .btn1 (btn1Of c1.val)⟩,
    ⟨c2.start, c3.finish, .stick (stickAxis c2.val) (stickAxis c3.val)⟩,
    ⟨c4.start, c5.finish, .cstick (stickAxis c4.val) (stickAxis c5.val)⟩,
    ⟨c6.start, c7.finish, .trig c6.val c7.val⟩]

/-- The five field emitters of rule R213 over eight queued bytes. -/
theorem statusFields_of_queued {s : State} {c0 c1 c2 c3 c4 c5 c6 c7 : ByteEntry}
    {rest : List ByteEntry}
    (hq : s.byteq = c0 :: c1 :: c2 :: c3 :: c4 :: c5 :: c6 :: c7 :: rest) :
    emitTrig (emitCStick (emitMainStick (emitBtn1 (emitBtn0 s)))) =
      { s with out := s.out ++ statusRecords c0 c1 c2 c3 c4 c5 c6 c7 } := by
  simp [emitTrig, emitCStick, emitMainStick, emitBtn1, emitBtn0, emitField, emit, hq, statusRecords]

/-- Settles O50: a response of eight bytes has the five fields and no origin bytes. -/
theorem statusResponseDecoded : Obligations.StatusResponseDecoded := by
  intro s c0 c1 c2 c3 c4 c5 c6 c7 rest hop hlen hq
  rw [decodeResponse_of_statusOp (.inl hop), decodeStatus, statusFields_of_queued hq,
    if_neg (by rw [hlen]; decide)]
  rfl

/-- Settles O51: a response of ten bytes has the five fields and then the origin bytes. -/
theorem originResponsesDecoded : Obligations.OriginResponsesDecoded := by
  intro s c0 c1 c2 c3 c4 c5 c6 c7 c8 c9 rest hop hlen hq
  have h8 : s.byteq[8]? = some c8 := by rw [hq]; rfl
  have h9 : s.byteq[9]? = some c9 := by rw [hq]; rfl
  rw [decodeResponse_of_statusOp (.inr hop), decodeStatus, statusFields_of_queued hq, if_pos hlen,
    emitOrigin, emitField_of_getElem (a := c8) (b := c9), List.append_assoc]
  · rfl
  · exact h8
  · exact h9

end Sys2Proof.Machine
end

section
/-! PROOFS. The statements of `60_exceptions.md`. -/

namespace Sys2Proof.Machine

/-! ## The rate check of a session start -/

/-- `FATAL` after a session start is the result of rule R242's test. -/
@[simp] theorem sessionStart_fatal (rate gap : Nat) (s : State) :
    (sessionStart rate gap s).fatal = decide (rate < 2000000) := by
  rw [sessionStart_eq]

theorem sessionStart_out_of_fatal {rate : Nat} (gap : Nat) (s : State) (h : rate < 2000000) :
    (sessionStart rate gap s).out = [⟨0, 0, .rateFatal⟩] := by
  rw [sessionStart_eq]
  exact if_pos h

theorem sessionStart_out_of_decoding {rate : Nat} (gap : Nat) (s : State) (h : 2000000 ≤ rate) :
    (sessionStart rate gap s).out = if rate < 5000000 then [⟨0, 0, .rateLow⟩] else [] := by
  rw [sessionStart_eq]
  exact if_neg (Nat.not_lt.2 h)

/-- Settles O8: from 2,000,000 Hz on the output is empty or another record. -/
theorem lowRateIsConfigError : Obligations.LowRateIsConfigError := by
  intro rate gap s
  refine ⟨by rw [sessionStart_fatal, decide_eq_true_iff], fun hout => ?_,
    sessionStart_out_of_fatal gap s⟩
  by_contra hrate
  rw [sessionStart_out_of_decoding gap s (Nat.not_lt.1 hrate)] at hout
  split at hout
  · simp at hout
  · cases hout

/-- Settles O9: neither threshold is below 2,000,000 Hz. -/
theorem borderlineRateWarns : Obligations.BorderlineRateWarns :=
  fun rate gap s hrate =>
    ⟨by rw [sessionStart_fatal, decide_eq_false (Nat.not_lt.2 hrate)],
      sessionStart_out_of_decoding gap s hrate⟩

/-! ## FATAL sessions -/

/-- Any number of samples in a FATAL session: only the host's list changes (rule R243). -/
theorem run_of_fatal {ds : List Bool} {acts : List HostAct} {s : State} (hs : s.started = true)
    (hf : s.fatal = true) (h : s.host = ds.map HostAct.sample ++ acts) :
    Sys2Proof.core.run ds.length s = .next { s with host := acts } := by
  induction ds generalizing s with
  | nil =>
    subst h
    rfl
  | cons d ds ih =>
    rw [List.length_cons, run_succ_of_next _ (step_of_fatal hs hf h)]
    exact ih hs hf rfl

/-- Settles O10: a silent host changes nothing and a sample keeps `FATAL`, so the act is a session
start. -/
theorem fatalSessionIgnoresSamples : Obligations.FatalSessionIgnoresSamples := by
  refine ⟨fun _ _ _ => run_of_fatal, fun s t _ hf hstep hclear => ?_⟩
  cases hhost : s.host with
  | nil =>
    rw [step_of_silent hhost] at hstep
    cases hstep
    simp [hf] at hclear
  | cons act acts =>
    cases act with
    | sessionStart rate gap => exact ⟨rate, gap, acts, rfl⟩
    | sample d =>
      obtain ⟨-, -, hkept, -⟩ := samplesKeepTheSession s t d acts hhost hstep
      simp [hkept, hf] at hclear

/-! ## Every step of a session has a next state -/

/-- Once a session has started, a sample is answered with a next state: FATAL drops it, a decoding
session ticks. -/
theorem exists_step_of_sample {s : State} {d : Bool} {acts : List HostAct} (hs : s.started = true)
    (hn : s.SampleNext d acts) : ∃ t, step s = .next t := by
  cases hf : s.fatal with
  | true => exact ⟨_, step_of_fatal hs hf hn⟩
  | false =>
    obtain ⟨u, hstep, -⟩ := step_of_decoding hs hf hn
    exact ⟨_, hstep⟩

/-- Settles O12, by the host's next act. -/
theorem stepStopsOnlyBeforeSession : Obligations.StepStopsOnlyBeforeSession := by
  intro s
  refine ⟨fun hs d acts hn => step_before_session hn hs, fun hcan => ?_⟩
  cases hhost : s.host with
  | nil => exact ⟨s, step_of_silent hhost⟩
  | cons act acts =>
    cases act with
    | sessionStart rate gap => exact ⟨_, step_of_sessionStart hhost⟩
    | sample d =>
      have hs : s.started = true := hcan.resolve_right fun hno => hno d acts hhost
      exact exists_step_of_sample hs hhost

/-- Settles O15: the end of the tick is the timeout test and the advance (rule R260). -/
theorem tickCountsOneSample : Obligations.TickCountsOneSample := by
  rintro s d acts ⟨hs, hf⟩ hn
  obtain ⟨u, hstep, -⟩ := step_of_decoding hs hf hn
  exact ⟨step_of_decoding_eq hs hf hn, _, hstep, finishTick_sidx .., finishTick_prev ..,
    finishTick_prevValid ..⟩

/-! ## The bit of a tick comes before its timeout test -/

/-- Outside a stop slot a bit that joins at least seven makes a byte, which the frame state machine
sees at once (rules R160, R161, R165). -/
theorem exists_emitBit_eq_frameStep {b : Bool} {st fi : Nat} {s : State}
    (hph : s.ph = .initial ∨ s.ph = .awaitResponseBytes) (hl : 7 ≤ s.bitq.length) :
    ∃ v st' fi' rest,
      emitBit b st fi s = frameStep (withByte v st' fi' rest (withBit b st fi s)) := by
  have hfull : 8 ≤ (withBit b st fi s).bitq.length + 1 := Nat.succ_le_succ hl
  obtain ⟨b0, b1, b2, b3, b4, b5, b6, b7, rest, hq⟩ :=
    exists_eight (l := (pushBit ⟨b, st, fi⟩ (withBit b st fi s)).bitq) (by simpa using hl)
  refine ⟨packByte b0.val b1.val b2.val b3.val b4.val b5.val b6.val b7.val, b0.start, b7.finish,
    rest, ?_⟩
  rw [emitBit, acceptBit_of_queueing (s := withBit b st fi s) (inStopSlot_eq_false_iff.2 hph),
    if_pos hfull, assemble_of_eight hq]
  rfl

/-- The bit that completes a response moves on to the response stop (rule R190). -/
theorem emitBit_completes_response {b : Bool} {st fi : Nat} {s : State}
    (hph : s.ph = .awaitResponseBytes) (hl : 7 ≤ s.bitq.length)
    (hfull : s.expLen ≤ s.byteq.length + 1) :
    ∃ u, emitBit b st fi s = .next u ∧ u.ph = .awaitResponseStop ∧
      u.byteq.length = s.byteq.length + 1 := by
  obtain ⟨v, st', fi', rest, hbit⟩ :=
    exists_emitBit_eq_frameStep (b := b) (st := st) (fi := fi) (.inr hph) hl
  obtain ⟨hdecoded, -⟩ :=
    (responseIsDecodedAtItsLength (withByte v st' fi' rest (withBit b st fi s)) hph).2
      (by simpa using hfull)
  exact ⟨_, hbit.trans hdecoded, rfl, by simp⟩

/-- A timeout that is due at the end of a tick aborts the response (rule R192). -/
theorem finishTick_of_due {d : Bool} {n : Nat} {s : State} (hph : s.ph = .awaitResponseBytes)
    (hdue : s.rate ≤ 1000 * (n - s.tref)) :
    (finishTick d n s).ph = .initial ∧ (finishTick d n s).bitq = [] ∧
      (finishTick d n s).byteq = [] := by
  rw [finishTick_ph, finishTick_bitq, finishTick_byteq, (timeoutAbortsResponse n s).1,
    if_pos ⟨hph, hdue⟩]
  exact ⟨rfl, rfl, rfl⟩

/-- Settles O46: a completed response is past the phase that can time out; the command stop enters that
phase, with `TREF` long enough ago. -/
theorem bitIsProcessedBeforeTimeout : Obligations.BitIsProcessedBeforeTimeout := by
  intro s acts hs hc hv hp hn
  have hstep := step_of_closeByFall hs hc hv hp hn
  refine ⟨fun hph hl hfull => ?_, fun hph hone hdue => ?_⟩
  · obtain ⟨u, hbit, huph, hlen⟩ :=
      emitBit_completes_response (b := bitValue (s.sidx - s.rise) s.low) (st := s.fall)
        (fi := s.sidx) (s := { s with host := acts }) hph hl.ge hfull
    have hstop : (openCell s.sidx u).ph ≠ .awaitResponseBytes := by simp [huph]
    refine ⟨_, by rw [hstep, hbit, andThen_next], ?_, ?_⟩
    · rw [finishTick_ph_of_ne hstop, openCell_ph, huph]
    · rw [finishTick_byteq, timeoutCheck_of_ne hstop, openCell_byteq, hlen]
  · obtain ⟨u, hbit, huph, htref, hrate⟩ : ∃ u,
        emitBit true s.fall s.sidx { s with host := acts } = .next u ∧
          u.ph = .awaitResponseBytes ∧ u.tref = s.cmd.first ∧ u.rate = s.rate :=
      ⟨_, commandStopAccepted { s with host := acts } s.fall s.sidx hph, rfl, rfl, rfl⟩
    obtain ⟨hinitial, hbitq, hbyteq⟩ :=
      finishTick_of_due (d := false) (n := s.sidx) (s := openCell s.sidx u)
        (by rw [openCell_ph, huph]) (by rwa [openCell_rate, openCell_tref, hrate, htref])
    refine ⟨_, ?_, hinitial, by rw [finishTick_tref, openCell_tref, htref], hbitq, hbyteq⟩
    rw [hstep, bitValue_eq_decide_le, decide_eq_true hone, hbit, andThen_next]

end Sys2Proof.Machine
end

section
/-! PROOFS. The statements of `70_reset_and_hazards.md`. -/

namespace Sys2Proof.Machine

/-! ## Session start -/

/-- Settles O6: of the state before, `sessionStart_eq` leaves nothing but the host's acts. -/
theorem sessionStartWritesEveryRegister : Obligations.SessionStartWritesEveryRegister := by
  intro rate gap acts s hhost
  rw [step_of_sessionStart hhost, sessionStart_eq]
  rfl

/-- Settles O7: 5,000,000 Hz is on neither side of the rate check (log entry 3). -/
theorem resetIsASessionStart : Obligations.ResetIsASessionStart := by
  intro s hhost
  rw [sessionStart_eq, hhost]
  rfl

/-- Settles O11: the first step answers one state, whichever of the two it starts from. -/
theorem sessionsDoNotLeak : Obligations.SessionsDoNotLeak := by
  intro s s' rate gap acts n hs hs'
  have hfirst : step s = step s' :=
    (sessionStartWritesEveryRegister rate gap acts s hs).trans
      (sessionStartWritesEveryRegister rate gap acts s' hs').symm
  exact run_succ_congr n hfirst

/-! ## When the records of a tick end -/

/-- The categories whose records end at the sample that adds them (rule R301). -/
def Category.Immediate (c : Category) : Prop := c = .bit ∨ c = .byte ∨ c = .stopBit

/-- What rule R301 says of a record that sample `n` adds. -/
def Record.EndsAt (n : Nat) (r : Record) : Prop :=
  r.finish ≤ n ∧ (r.payload.category.Immediate → r.finish = n)

/-- A record's span is over by the time it is said to be, the empty one of a warning included. -/
theorem finish_le_of_spanBy {n : Nat} {r : Record} (h : r.spanBy n) : r.finish ≤ n := by
  rcases h with ⟨-, -, hzero⟩ | ⟨-, -, hle⟩
  · exact hzero ▸ n.zero_le
  · exact hle

/-- A byte of at most seven queued bits and one more ends with that one (rule R161). -/
theorem eighth_bit_eq {b : BitEntry} {q rest : List BitEntry} {b0 b1 b2 b3 b4 b5 b6 b7 : BitEntry}
    (hl : q.length ≤ 7) (hq : q ++ [b] = b0 :: b1 :: b2 :: b3 :: b4 :: b5 :: b6 :: b7 :: rest) :
    b7 = b := by
  obtain rfl := no_bits_left hl hq
  simpa using (congrArg List.getLast? hq).symm

/-- What the frame state machine adds for a byte is a command's or a response's record. -/
theorem ByteEffect.not_immediate {s t : State} (h : ByteEffect s t) :
    ∃ rs, t.out = s.out ++ rs ∧ ∀ r ∈ rs, ¬ r.payload.category.Immediate := by
  obtain ⟨rs, hout, ⟨-, hcat⟩ | ⟨-, hcat⟩⟩ := h.out
  · exact ⟨rs, hout, fun r hr => by simp [Category.Immediate, hcat r hr]⟩
  · exact ⟨rs, hout, fun r hr => by simp [Category.Immediate, hcat r hr]⟩

/-- The bit's own record, the stop's and the byte's all end where the bit does. -/
theorem BitEffect.immediate {b : Bool} {st fi : Nat} {s t : State} (h : BitEffect b st fi s t)
    (hbits : s.bitq.length ≤ 7) :
    ∃ rs, t.out = s.out ++ rs ∧ ∀ r ∈ rs, r.payload.category.Immediate → r.finish = fi := by
  cases h with
  | stopZero _ _ => exact ⟨[_], rfl, by simp⟩
  | queued _ _ => exact ⟨[_], rfl, by simp⟩
  | commandStop _ _ => exact ⟨[_, _], List.append_assoc s.out [_] [_], by simp⟩
  | responseStop _ _ => exact ⟨[_, _], List.append_assoc s.out [_] [_], by simp⟩
  | byte _ hq ht =>
    obtain ⟨rs, hout, hrs⟩ := ht.not_immediate
    refine ⟨_ :: _ :: rs, hout.trans ((List.append_assoc _ [_] rs).trans
      (List.append_assoc s.out [_] ([_] ++ rs))), ?_⟩
    exact List.forall_mem_cons.2 ⟨fun _ => rfl, List.forall_mem_cons.2
      ⟨fun _ => by rw [eighth_bit_eq hbits hq], fun r hr himm => absurd himm (hrs r hr)⟩⟩

/-- In a sound state the bit that the cell in progress makes is classified at the horizon, so nothing
it adds is late. -/
theorem BitEffect.endsAt {b : Bool} {s t : State} (h : BitEffect b s.fall s.sidx s t) (hs : s.Sound)
    (hc : s.cph = .seekEvent) :
    ∃ rs, t.out = s.out ++ rs ∧ ∀ r ∈ rs, r.EndsAt s.sidx := by
  obtain ⟨hqueues, hcell, htimes, -⟩ := hs
  obtain ⟨hlt, hhorizon⟩ := cell_of_seekEvent hcell hc
  obtain ⟨-, -, hframe⟩ := timesSound_iff.1 htimes
  have hbits : s.bitq.length ≤ 7 := hqueues.1
  have hafter : t.FrameTimes s.sidx s.sidx := h.frameTimes hbits hlt (hhorizon ▸ hframe)
  obtain ⟨rs, hout, hrs⟩ := h.immediate hbits
  refine ⟨rs, hout, fun r hr => ⟨finish_le_of_spanBy (hafter.out r ?_), hrs r hr⟩⟩
  rw [hout]
  exact List.mem_append_right _ hr

/-- The classifier adds records only with the bit of a closed cell. -/
theorem ClassifyEffect.endsAt {e : Edge} {s u : State} (h : ClassifyEffect e s u) (hs : s.Sound) :
    ∃ rs, u.out = s.out ++ rs ∧ ∀ r ∈ rs, r.EndsAt s.sidx := by
  cases h with
  | unchanged _ => exact ⟨[], by simp, by simp⟩
  | opened _ _ => exact ⟨[], by simp, by simp⟩
  | rose _ _ => exact ⟨[], by simp, by simp⟩
  | closedByFall hc _ ht => simpa using ht.endsAt hs hc
  | closedByIdle hc _ _ ht => exact ht.endsAt hs hc

/-- Settles O57: a FATAL sample adds nothing, and the end of a tick adds nothing to what the
classifier did. -/
theorem recordsEndAtTheirTick : Obligations.RecordsEndAtTheirTick := by
  intro s t d acts hs hn h
  rcases step_sample_cases hn h with rfl | ⟨-, u, rfl, hc⟩
  · exact ⟨[], by simp, by simp⟩
  · obtain ⟨rs, hout, hrs⟩ := hc.endsAt (s := { s with host := acts }) hs
    exact ⟨rs, by rw [finishTick_out, hout], hrs⟩

end Sys2Proof.Machine
end
